-- ==== Sys2Proof/Word.lean ====
section
/-! DEFINITION. The two word types of the LS-8 core: the byte (00_scope.md R8, `XLEN` = 8) and the 9-bit
program-counter word (R8, `PC_WIDTH` = 9). -/

namespace Sys2Proof

/-- One register, memory cell, operand or opcode: an unsigned 8-bit value (00_scope.md R10). -/
abbrev Byte := BitVec 8

/-- A program-counter value or an address recorded in STATUS: 9 bits (10_state.md R26, R29). -/
abbrev PcWord := BitVec 9

end Sys2Proof
end

