-- ==== Sys2Proof/Config.lean ====
section
/-! DEFINITION. The implementation parameters of 00_scope.md R8. The spec leaves the result of no instruction open
(93_implementation_defined.md, Part 1), so there is no free value here: the open points are the launch parameters
`OPSET`, `R_INIT` and `MEM_INIT`, which `Machine/Launch.lean` takes as arguments. -/

namespace Sys2Proof

/-- The profile a core is built for (00_scope.md R3, R4): the source's nine instructions, or those and the 21 of
the public LS-8 specification. -/
inductive OpSet where
  | base
  | extended
  deriving DecidableEq, Repr

namespace Config

/-- `MEM_SIZE`: addresses 0..255 (00_scope.md R8). -/
abbrev memSize : Nat := 256

/-- `SP_REG`: register 7 is the stack pointer (00_scope.md R8, 10_state.md R21). -/
abbrev spReg : Fin 8 := 7

/-- `SP_INIT` (00_scope.md R8). -/
abbrev spInit : Byte := 0xF4

/-- `PC_RESET` (00_scope.md R8). -/
abbrev pcReset : PcWord := 0

/-- `FL_INIT` (00_scope.md R8; EXTENDED only). -/
abbrev flInit : Byte := 0

/-- The default of `OPSET` (00_scope.md R8). -/
abbrev opsetDefault : OpSet := .base

end Config

end Sys2Proof
end

