-- ==== Sys2Proof/Syntax.lean ====
section
/-! DEFINITION. The instructions of the LS-8 core: one constructor of `Instr` for each row of the opcode table, in the
table's order, and the closed enumeration of instruction kinds the decoder turns an opcode into (30_encoding.md R70). -/

namespace Sys2Proof

/-- The four instruction formats (30_encoding.md R62). -/
inductive Format where
  /-- The opcode alone. -/
  | f0
  /-- One register-index byte. -/
  | f1r
  /-- Two register-index bytes. -/
  | f2rr
  /-- A register-index byte and an immediate byte. -/
  | f2ri
  deriving DecidableEq, Repr

/-- The kinds of instruction, without operands: the values of the handler map (30_encoding.md R64, R65, R70). -/
inductive Kind where
  | hlt
  | ret
  | push
  | pop
  | prn
  | call
  | ldi
  | add
  | mul
  | jmp
  | jeq
  | jne
  | jgt
  | jlt
  | jle
  | jge
  | inc
  | dec
  | not
  | ld
  | st
  | sub
  | div
  | mod
  | cmp
  | and
  | or
  | xor
  | shl
  | shr
  deriving DecidableEq, Repr

/-- A decoded instruction. A register operand is the WHOLE operand byte (30_encoding.md R63): an index of 8 or more is a
decodable instruction, whose handler raises AddressOutOfRange. `ra` and `rb` are operand bytes 1 and 2, `imm` is LDI's
immediate. -/
inductive Instr where
  /-- HLT, format F0 (43_control.md R140). -/
  | hlt
  /-- RET, format F0 (43_control.md R146). -/
  | ret
  /-- PUSH, format F1R (42_data_output.md R128). -/
  | push (ra : Byte)
  /-- POP, format F1R (42_data_output.md R131). -/
  | pop (ra : Byte)
  /-- PRN, format F1R (42_data_output.md R124). -/
  | prn (ra : Byte)
  /-- CALL, format F1R (43_control.md R143). -/
  | call (ra : Byte)
  /-- LDI, format F2RI (42_data_output.md R120). -/
  | ldi (ra imm : Byte)
  /-- ADD, format F2RR (41_alu.md R105). -/
  | add (ra rb : Byte)
  /-- MUL, format F2RR (41_alu.md R108). -/
  | mul (ra rb : Byte)
  /-- JMP, format F1R (45_ext_control_memory.md R190). -/
  | jmp (ra : Byte)
  /-- JEQ, format F1R (45_ext_control_memory.md R192). -/
  | jeq (ra : Byte)
  /-- JNE, format F1R (45_ext_control_memory.md R193). -/
  | jne (ra : Byte)
  /-- JGT, format F1R (45_ext_control_memory.md R194). -/
  | jgt (ra : Byte)
  /-- JLT, format F1R (45_ext_control_memory.md R195). -/
  | jlt (ra : Byte)
  /-- JLE, format F1R (45_ext_control_memory.md R196). -/
  | jle (ra : Byte)
  /-- JGE, format F1R (45_ext_control_memory.md R197). -/
  | jge (ra : Byte)
  /-- INC, format F1R (44_ext_alu.md R167). -/
  | inc (ra : Byte)
  /-- DEC, format F1R (44_ext_alu.md R168). -/
  | dec (ra : Byte)
  /-- NOT, format F1R (44_ext_alu.md R176). -/
  | not (ra : Byte)
  /-- LD, format F2RR (45_ext_control_memory.md R200). -/
  | ld (ra rb : Byte)
  /-- ST, format F2RR (45_ext_control_memory.md R201). -/
  | st (ra rb : Byte)
  /-- SUB, format F2RR (44_ext_alu.md R162). -/
  | sub (ra rb : Byte)
  /-- DIV, format F2RR (44_ext_alu.md R164). -/
  | div (ra rb : Byte)
  /-- MOD, format F2RR (44_ext_alu.md R165). -/
  | mod (ra rb : Byte)
  /-- CMP, format F2RR (44_ext_alu.md R172). -/
  | cmp (ra rb : Byte)
  /-- AND, format F2RR (44_ext_alu.md R173). -/
  | and (ra rb : Byte)
  /-- OR, format F2RR (44_ext_alu.md R174). -/
  | or (ra rb : Byte)
  /-- XOR, format F2RR (44_ext_alu.md R175). -/
  | xor (ra rb : Byte)
  /-- SHL, format F2RR (44_ext_alu.md R178). -/
  | shl (ra rb : Byte)
  /-- SHR, format F2RR (44_ext_alu.md R179). -/
  | shr (ra rb : Byte)
  deriving DecidableEq, Repr

/-- The kind of an instruction: what is left when its operands are taken away. -/
def Instr.kind : Instr → Kind
  | .hlt => .hlt
  | .ret => .ret
  | .push _ => .push
  | .pop _ => .pop
  | .prn _ => .prn
  | .call _ => .call
  | .ldi _ _ => .ldi
  | .add _ _ => .add
  | .mul _ _ => .mul
  | .jmp _ => .jmp
  | .jeq _ => .jeq
  | .jne _ => .jne
  | .jgt _ => .jgt
  | .jlt _ => .jlt
  | .jle _ => .jle
  | .jge _ => .jge
  | .inc _ => .inc
  | .dec _ => .dec
  | .not _ => .not
  | .ld _ _ => .ld
  | .st _ _ => .st
  | .sub _ _ => .sub
  | .div _ _ => .div
  | .mod _ _ => .mod
  | .cmp _ _ => .cmp
  | .and _ _ => .and
  | .or _ _ => .or
  | .xor _ _ => .xor
  | .shl _ _ => .shl
  | .shr _ _ => .shr

/-- The operand bytes, in the order in which they follow the opcode (30_encoding.md R62). -/
def Instr.operands : Instr → List Byte
  | .hlt => []
  | .ret => []
  | .push ra => [ra]
  | .pop ra => [ra]
  | .prn ra => [ra]
  | .call ra => [ra]
  | .ldi ra imm => [ra, imm]
  | .add ra rb => [ra, rb]
  | .mul ra rb => [ra, rb]
  | .jmp ra => [ra]
  | .jeq ra => [ra]
  | .jne ra => [ra]
  | .jgt ra => [ra]
  | .jlt ra => [ra]
  | .jle ra => [ra]
  | .jge ra => [ra]
  | .inc ra => [ra]
  | .dec ra => [ra]
  | .not ra => [ra]
  | .ld ra rb => [ra, rb]
  | .st ra rb => [ra, rb]
  | .sub ra rb => [ra, rb]
  | .div ra rb => [ra, rb]
  | .mod ra rb => [ra, rb]
  | .cmp ra rb => [ra, rb]
  | .and ra rb => [ra, rb]
  | .or ra rb => [ra, rb]
  | .xor ra rb => [ra, rb]
  | .shl ra rb => [ra, rb]
  | .shr ra rb => [ra, rb]

/-- The operands an instruction's rule names register indices, in the order they are checked: `ra` before `rb`
(60_exceptions.md R211 case 3, R217). LDI's immediate is none. -/
def Instr.regOperands : Instr → List Byte
  | .ldi ra _ => [ra]
  | .hlt => []
  | .ret => []
  | .push ra => [ra]
  | .pop ra => [ra]
  | .prn ra => [ra]
  | .call ra => [ra]
  | .add ra rb => [ra, rb]
  | .mul ra rb => [ra, rb]
  | .jmp ra => [ra]
  | .jeq ra => [ra]
  | .jne ra => [ra]
  | .jgt ra => [ra]
  | .jlt ra => [ra]
  | .jle ra => [ra]
  | .jge ra => [ra]
  | .inc ra => [ra]
  | .dec ra => [ra]
  | .not ra => [ra]
  | .ld ra rb => [ra, rb]
  | .st ra rb => [ra, rb]
  | .sub ra rb => [ra, rb]
  | .div ra rb => [ra, rb]
  | .mod ra rb => [ra, rb]
  | .cmp ra rb => [ra, rb]
  | .and ra rb => [ra, rb]
  | .or ra rb => [ra, rb]
  | .xor ra rb => [ra, rb]
  | .shl ra rb => [ra, rb]
  | .shr ra rb => [ra, rb]

end Sys2Proof
end

