-- ==== Sys2Proof/WellFormed.lean ====
section
/-! DEFINITION. When an instruction is well formed: every register operand names a register. -/

namespace Sys2Proof

/-- A byte names a register when it is an index 0..7 (10_state.md R20, R34). -/
def namesRegister (b : Byte) : Bool :=
  decide (b.toNat < 8)

/-- An instruction is well formed when each register operand names a register, as an assembler's `R0` to `R7` do
(30_encoding.md R78). The decoder also yields ill-formed ones: their handlers raise AddressOutOfRange (R63). An immediate
is never checked (42_data_output.md R120). -/
def Instr.wellFormed (i : Instr) : Bool :=
  i.regOperands.all namesRegister

end Sys2Proof
end

