-- ==== Sys2Proof/Decode.lean ====
section
/-! DEFINITION. Instruction encoding: the opcode table (30_encoding.md R64, R65), the operand count (R69), the handler map
of each profile (R70), the decoder, total on any bytes and rejecting by name, and after it the encoder written from the
same table. The opcode numbers stand in one definition, `Kind.opcode`. -/

namespace Sys2Proof

/-- The field of bits `hi` down to `lo` of a byte, as an unsigned number: `v[hi:lo]` (00_scope.md R10). -/
def bitField (v : Byte) (hi lo : Nat) : Nat :=
  v.toNat / 2 ^ lo % 2 ^ (hi - lo + 1)

/-- The opcode byte of each kind (30_encoding.md R64 and R65). -/
def Kind.opcode : Kind → Byte
  | .hlt => 0x01
  | .ret => 0x11
  | .push => 0x45
  | .pop => 0x46
  | .prn => 0x47
  | .call => 0x50
  | .ldi => 0x82
  | .add => 0xA0
  | .mul => 0xA2
  | .jmp => 0x54
  | .jeq => 0x55
  | .jne => 0x56
  | .jgt => 0x57
  | .jlt => 0x58
  | .jle => 0x59
  | .jge => 0x5A
  | .inc => 0x65
  | .dec => 0x66
  | .not => 0x69
  | .ld => 0x83
  | .st => 0x84
  | .sub => 0xA1
  | .div => 0xA3
  | .mod => 0xA4
  | .cmp => 0xA7
  | .and => 0xA8
  | .or => 0xAA
  | .xor => 0xAB
  | .shl => 0xAC
  | .shr => 0xAD

/-- The format of each kind (30_encoding.md R62, R64, R65). -/
def Kind.format : Kind → Format
  | .hlt => .f0
  | .ret => .f0
  | .push => .f1r
  | .pop => .f1r
  | .prn => .f1r
  | .call => .f1r
  | .ldi => .f2ri
  | .add => .f2rr
  | .mul => .f2rr
  | .jmp => .f1r
  | .jeq => .f1r
  | .jne => .f1r
  | .jgt => .f1r
  | .jlt => .f1r
  | .jle => .f1r
  | .jge => .f1r
  | .inc => .f1r
  | .dec => .f1r
  | .not => .f1r
  | .ld => .f2rr
  | .st => .f2rr
  | .sub => .f2rr
  | .div => .f2rr
  | .mod => .f2rr
  | .cmp => .f2rr
  | .and => .f2rr
  | .or => .f2rr
  | .xor => .f2rr
  | .shl => .f2rr
  | .shr => .f2rr

/-- The smallest profile that has the instruction: `base` for the nine of 30_encoding.md R64, `extended` for the rows of
R65. -/
def Kind.profile : Kind → OpSet
  | .hlt => .base
  | .ret => .base
  | .push => .base
  | .pop => .base
  | .prn => .base
  | .call => .base
  | .ldi => .base
  | .add => .base
  | .mul => .base
  | .jmp => .extended
  | .jeq => .extended
  | .jne => .extended
  | .jgt => .extended
  | .jlt => .extended
  | .jle => .extended
  | .jge => .extended
  | .inc => .extended
  | .dec => .extended
  | .not => .extended
  | .ld => .extended
  | .st => .extended
  | .sub => .extended
  | .div => .extended
  | .mod => .extended
  | .cmp => .extended
  | .and => .extended
  | .or => .extended
  | .xor => .extended
  | .shl => .extended
  | .shr => .extended

/-- Whether the handler map of profile `o` has this kind: EXTENDED holds BASE's nine as well (30_encoding.md R70). -/
def Kind.inProfile (o : OpSet) (k : Kind) : Bool :=
  match o, k.profile with
  | .extended, _ => true
  | .base, .base => true
  | .base, .extended => false

/-- Every kind, in the order of the opcode table. -/
def Kind.all : List Kind :=
  [.hlt, .ret, .push, .pop, .prn, .call, .ldi, .add, .mul, .jmp, .jeq, .jne, .jgt, .jlt, .jle] ++
  [.jge, .inc, .dec, .not, .ld, .st, .sub, .div, .mod, .cmp, .and, .or, .xor, .shl, .shr]

/-- How many operand bytes a format has (30_encoding.md R62). -/
def Format.operandCount : Format → Nat
  | .f0 => 0
  | .f1r => 1
  | .f2rr => 2
  | .f2ri => 2

/-- Whether the instruction computes through the ALU: the table's column `alu` (30_encoding.md R64, R65). -/
def Kind.usesAlu : Kind → Bool
  | .hlt => false
  | .ret => false
  | .push => false
  | .pop => false
  | .prn => false
  | .call => false
  | .ldi => false
  | .add => true
  | .mul => true
  | .jmp => false
  | .jeq => false
  | .jne => false
  | .jgt => false
  | .jlt => false
  | .jle => false
  | .jge => false
  | .inc => true
  | .dec => true
  | .not => true
  | .ld => false
  | .st => false
  | .sub => true
  | .div => true
  | .mod => true
  | .cmp => true
  | .and => true
  | .or => true
  | .xor => true
  | .shl => true
  | .shr => true

/-- Whether the instruction is a control transfer that can set `pc`: the table's column `setpc` (30_encoding.md R64,
R65). -/
def Kind.setsPc : Kind → Bool
  | .hlt => false
  | .ret => true
  | .push => false
  | .pop => false
  | .prn => false
  | .call => true
  | .ldi => false
  | .add => false
  | .mul => false
  | .jmp => true
  | .jeq => true
  | .jne => true
  | .jgt => true
  | .jlt => true
  | .jle => true
  | .jge => true
  | .inc => false
  | .dec => false
  | .not => false
  | .ld => false
  | .st => false
  | .sub => false
  | .div => false
  | .mod => false
  | .cmp => false
  | .and => false
  | .or => false
  | .xor => false
  | .shl => false
  | .shr => false

/-- The operand count the dispatcher derives from the opcode's bits 7:6 alone; the unassigned value 3 is read as 2
(30_encoding.md R69). -/
def operandCount (op : Byte) : Nat :=
  let count := bitField op 7 6
  if count = 3 then 2 else count

/-- The handler map `HANDLER[OPSET]`: the kind an opcode byte stands for, or none (30_encoding.md R70). -/
def lookup (o : OpSet) (op : Byte) : Option Kind :=
  Kind.all.find? (fun k => k.opcode == op && k.inProfile o)

/-- The instruction of a kind with these operand bytes; a format with fewer operands leaves the rest unused. -/
def Kind.build (k : Kind) (ra rb : Byte) : Instr :=
  match k with
  | .hlt => .hlt
  | .ret => .ret
  | .push => .push ra
  | .pop => .pop ra
  | .prn => .prn ra
  | .call => .call ra
  | .ldi => .ldi ra rb
  | .add => .add ra rb
  | .mul => .mul ra rb
  | .jmp => .jmp ra
  | .jeq => .jeq ra
  | .jne => .jne ra
  | .jgt => .jgt ra
  | .jlt => .jlt ra
  | .jle => .jle ra
  | .jge => .jge ra
  | .inc => .inc ra
  | .dec => .dec ra
  | .not => .not ra
  | .ld => .ld ra rb
  | .st => .st ra rb
  | .sub => .sub ra rb
  | .div => .div ra rb
  | .mod => .mod ra rb
  | .cmp => .cmp ra rb
  | .and => .and ra rb
  | .or => .or ra rb
  | .xor => .xor ra rb
  | .shl => .shl ra rb
  | .shr => .shr ra rb

/-- Whether profile `o` has this instruction. -/
def Instr.inProfile (o : OpSet) (i : Instr) : Bool :=
  i.kind.inProfile o

/-- Why bytes are not decoded. -/
inductive DecodeError where
  /-- There is no byte at all. -/
  | noBytes
  /-- Fewer operand bytes follow than the opcode's count asks for; reported before the handler lookup, as in
  30_encoding.md R67 and R68. -/
  | truncated (op : Byte)
  /-- The profile maps no handler to this opcode (30_encoding.md R72, R76). -/
  | unknownOpcode (op : Byte)
  deriving DecidableEq, Repr

/-- Decode the instruction at the head of `bytes` and give it with the bytes that follow it. The order is that of
30_encoding.md R67: the operand bytes first, then the lookup. -/
def decode (o : OpSet) (bytes : List Byte) : Except DecodeError (Instr × List Byte) :=
  match bytes with
  | [] => .error .noBytes
  | op :: rest =>
    if rest.length < operandCount op then .error (.truncated op)
    else
      match lookup o op with
      | none => .error (.unknownOpcode op)
      | some k => .ok (k.build (rest.getD 0 0) (rest.getD 1 0), rest.drop (operandCount op))

/-- The bytes of an instruction: its opcode, then its operands (30_encoding.md R60, R62). -/
def encode (i : Instr) : List Byte :=
  i.kind.opcode :: i.operands

/-- The bytes of an instruction word as the opcode table numbers its bits: bit 0 is the least significant bit of the
opcode byte, byte 1 holds bits 15..8 and byte 2 bits 23..16. Every bit above `nbits` is 0, up to the longest instruction. -/
def tableBytes (nbits w : Nat) : List Byte :=
  let v := w % 2 ^ nbits
  [BitVec.ofNat 8 v, BitVec.ofNat 8 (v / 256), BitVec.ofNat 8 (v / 65536)]

/-- The instruction the decoder reads from a word of the opcode table. The table holds the rows of both profiles, so it
is read with the handler map of EXTENDED. DESIGN CHOICE (log entry 5), safe: the two maps agree on BASE's rows. -/
def decodeTableWord (nbits w : Nat) : Option Instr :=
  match decode .extended (tableBytes nbits w) with
  | .ok (i, _) => some i
  | .error _ => none

end Sys2Proof
end

