-- ==== Sys2Proof/Machine/State.lean ====
section
/-! DEFINITION. The state of the LS-8 core as plain data (10_state.md), the conditions it raises (60_exceptions.md R210), the
reasons a step can stop, and the state after reset. -/

namespace Sys2Proof.Machine

/-- The register file `x[0..7]` (10_state.md R20). `r7` is SP (R21). -/
structure Regs where
  r0 : Byte
  r1 : Byte
  r2 : Byte
  r3 : Byte
  r4 : Byte
  r5 : Byte
  r6 : Byte
  r7 : Byte
  deriving DecidableEq, Repr

/-- `STATUS.cause` (10_state.md R29); the 3-bit codes are in `Cause.code`. -/
inductive Cause where
  /-- Still running. -/
  | none
  /-- HLT executed: the normal end. -/
  | halt
  | unknownInstruction
  | addressOutOfRange
  | unsupportedOperation
  /-- EXTENDED only. -/
  | divideByZero
  deriving DecidableEq, Repr

/-- `STATUS.space` (10_state.md R29): what the out-of-range value would have named. -/
inductive Space where
  | memory
  | register
  deriving DecidableEq, Repr

/-- The record `STATUS` (10_state.md R29), which no program can reach: why the core halted, the address and the opcode of
the instruction that halted it (no opcode when the fetch itself failed), and, for AddressOutOfRange, what was out of range. -/
structure Status where
  cause  : Cause
  addr   : PcWord
  opcode : Option Byte
  space  : Space
  value  : PcWord
  deriving DecidableEq, Repr

/-- The 256 bytes `M[0..255]` (10_state.md R31), listed by rising address; a byte equal to what an unlisted address reads
as (`Memory.unlisted`) is not listed. -/
abbrev Memory := List Host.Cell

/-- The conditions the core raises (60_exceptions.md R210). -/
inductive Condition where
  /-- The opcode has no handler (R212). -/
  | unknownInstruction
  /-- A register index of 8 or more, or a memory address of 256 or more (R211); `value` is that number. -/
  | addressOutOfRange (space : Space) (value : Nat)
  /-- The ALU was given a tag its profile does not support (R213). -/
  | unsupportedOperation
  /-- DIV or MOD by 0 (R215). -/
  | divideByZero
  deriving DecidableEq, Repr

/-- Everything the spec gives the machine (10_state.md), and the parameter `OPSET`. -/
structure State where
  /-- The parameter `OPSET` (00_scope.md R4): the model's own field, fixed for the run. -/
  opset   : OpSet
  /-- `x[0..7]` (10_state.md R20). -/
  regs    : Regs
  /-- `pc`, 9 bits (10_state.md R25, R26). -/
  pc      : PcWord
  /-- `running` (10_state.md R28). -/
  running : Bool
  /-- `STATUS` (10_state.md R29). -/
  status  : Status
  /-- `M[0..255]` (10_state.md R31). -/
  mem     : Memory
  /-- `OUT`, oldest byte first (10_state.md R32). -/
  out     : List Byte
  /-- `FL`, EXTENDED only: L bit 2, G bit 1, E bit 0 (10_state.md R27). BASE never reads or writes it. -/
  fl      : Byte
  deriving DecidableEq, Repr

/-- The one reason a step stops. -/
inductive Fault where
  /-- Raised by `step` alone, when `running` is false: a halted core has no step (30_encoding.md R66). Safe: nothing is
  claimed of a state after it. No instruction raises it; every condition of the spec is a NEXT state. -/
  | halted
  deriving DecidableEq, Repr

/-- Why an instruction would have no meaning. -/
inductive Refusal where
  /-- Raised by an arm of `exec` whose instruction is not modelled yet; no arm does. Safe. -/
  | notModelled (mnemonic : String)
  deriving DecidableEq, Repr

/-- What a meaning and a step answer. -/
abbrev Result := Host.Outcome State Fault Refusal

/-- The state right after reset (70_reset_and_hazards.md R240): SP = 0xF4, pc = 0, running, cause NONE, OUT empty, FL = 0,
and `OPSET` at its default. DESIGN CHOICE, unsafe, where the spec gives a launch parameter or nothing: R0 to R6 are 0 (log
entry 1), memory lists nothing (log entry 2), the STATUS fields other than the cause are 0, none and MEMORY (log entry 3).
`State.launch` is the reset for every value of the launch parameters. -/
def State.reset : State where
  opset := Config.opsetDefault
  regs := { r0 := 0, r1 := 0, r2 := 0, r3 := 0, r4 := 0, r5 := 0, r6 := 0, r7 := Config.spInit }
  pc := Config.pcReset
  running := true
  status := { cause := .none, addr := 0, opcode := none, space := .memory, value := 0 }
  mem := []
  out := []
  fl := Config.flInit

end Sys2Proof.Machine
end

