-- ==== Sys2Proof/Machine/Ops.lean ====
section
/-! DEFINITION. The named operations over registers, memory, output and pc (00_scope.md R11), raising a condition
(60_exceptions.md R214) and settling a handler. -/

namespace Sys2Proof.Machine

/-- `trunc8`: the least non-negative residue modulo 256 (00_scope.md R11). -/
def trunc8 (v : Int) : Byte :=
  BitVec.ofInt 8 v

/-! ### Registers -/

/-- Read `x[i]` (10_state.md R20). -/
def Regs.get (r : Regs) (i : Fin 8) : Byte :=
  match i with
  | 0 => r.r0
  | 1 => r.r1
  | 2 => r.r2
  | 3 => r.r3
  | 4 => r.r4
  | 5 => r.r5
  | 6 => r.r6
  | 7 => r.r7

/-- Write `x[i]`. No register is hardwired (10_state.md R20). -/
def Regs.set (r : Regs) (i : Fin 8) (v : Byte) : Regs :=
  match i with
  | 0 => { r with r0 := v }
  | 1 => { r with r1 := v }
  | 2 => { r with r2 := v }
  | 3 => { r with r3 := v }
  | 4 => { r with r4 := v }
  | 5 => { r with r5 := v }
  | 6 => { r with r6 := v }
  | 7 => { r with r7 := v }

/-- `x[i]` in a state. -/
def State.reg (s : State) (i : Fin 8) : Byte :=
  s.regs.get i

/-- `x[i] <- v`. -/
def State.setReg (s : State) (i : Fin 8) (v : Byte) : State :=
  { s with regs := s.regs.set i v }

/-- `SP`, another name for `x[7]` (10_state.md R21). -/
def State.sp (s : State) : Byte :=
  s.reg Config.spReg

/-- `SP <- v`. -/
def State.setSp (s : State) (v : Byte) : State :=
  s.setReg Config.spReg v

/-! ### Memory -/

/-- What an address that is not listed reads as. The spec makes the reset contents a launch parameter (10_state.md R31).
DESIGN CHOICE (log entry 2), unsafe. -/
def Memory.unlisted : Byte := 0

/-- The canonical form from address `lo` on: addresses strictly rising, below 256, no byte equal to `unlisted`. -/
def Memory.wfFrom (lo : Nat) : Memory → Bool
  | [] => true
  | (a, v) :: m =>
    decide (lo ≤ a) && decide (a < Config.memSize) && decide (v ≠ Memory.unlisted) && Memory.wfFrom (a + 1) m

/-- The canonical form: equal memories are equal lists. -/
def Memory.wf (m : Memory) : Bool :=
  Memory.wfFrom 0 m

/-- The byte `M[a]`. -/
def Memory.get : Memory → Nat → Byte
  | [], _ => Memory.unlisted
  | (k, v) :: m, a => if k = a then v else Memory.get m a

/-- `M[a] <- v`, keeping the canonical form. -/
def Memory.set : Memory → Nat → Byte → Memory
  | [], a, v => if v = Memory.unlisted then [] else [(a, v)]
  | (k, w) :: m, a, v =>
    if a < k then (if v = Memory.unlisted then (k, w) :: m else (a, v) :: (k, w) :: m)
    else if a = k then (if v = Memory.unlisted then m else (a, v) :: m)
    else (k, w) :: Memory.set m a v

/-- `MemRead(a, 1)` with its bounds check (20_memory.md R41). -/
def memRead (s : State) (a : Nat) : Except Condition Byte :=
  if Config.memSize ≤ a then .error (.addressOutOfRange .memory a) else .ok (s.mem.get a)

/-- `MemWrite(a, 1, v)` with its bounds check (20_memory.md R41). -/
def memWrite (s : State) (a : Nat) (v : Byte) : Except Condition State :=
  if Config.memSize ≤ a then .error (.addressOutOfRange .memory a)
  else .ok { s with mem := s.mem.set a v }

/-! ### The stack -/

/-- The address PUSH and CALL write to: `trunc8(SP - 1)` (42_data_output.md R125). -/
def State.pushAddr (s : State) : Byte :=
  trunc8 ((s.sp.toNat : Int) - 1)

/-- `SP <- trunc8(SP - 1)`. -/
def State.decSp (s : State) : State :=
  s.setSp s.pushAddr

/-- `SP <- trunc8(SP + 1)` (42_data_output.md R125). -/
def State.incSp (s : State) : State :=
  s.setSp (trunc8 ((s.sp.toNat : Int) + 1))

/-! ### Output, program counter, halting -/

/-- `out(v)`: append `v` to OUT (42_data_output.md R122). -/
def State.emit (s : State) (v : Byte) : State :=
  { s with out := s.out ++ [v] }

/-- `pc <- t` for an 8-bit target (43_control.md R147). -/
def State.jump (s : State) (t : Byte) : State :=
  { s with pc := t.setWidth 9 }

/-- `pc <- pc + 1 + n`, the advance past an instruction with `n` operand bytes (30_encoding.md R75). It is not reduced
modulo 256; from the pc values a run reaches the sum is at most 256. -/
def State.advance (s : State) (n : Nat) : State :=
  { s with pc := BitVec.ofNat 9 (s.pc.toNat + 1 + n) }

/-- `FL <- v`. -/
def State.setFl (s : State) (v : Byte) : State :=
  { s with fl := v }

/-- HLT's writes to `running` and STATUS, by the instruction at `pc` with opcode `op` (43_control.md R140). -/
def State.halt (s : State) (op : Byte) : State :=
  { s with running := false, status := { s.status with cause := .halt, addr := s.pc, opcode := some op } }

/-! ### Conditions -/

/-- The number of a cause (10_state.md R29, 60_exceptions.md R210). -/
def Cause.code : Cause → BitVec 3
  | .none => 0
  | .halt => 1
  | .unknownInstruction => 2
  | .addressOutOfRange => 3
  | .unsupportedOperation => 4
  | .divideByZero => 5

/-- The cause a condition records (60_exceptions.md R210). -/
def Condition.cause : Condition → Cause
  | .unknownInstruction => .unknownInstruction
  | .addressOutOfRange _ _ => .addressOutOfRange
  | .unsupportedOperation => .unsupportedOperation
  | .divideByZero => .divideByZero

/-- STATUS after a condition raised at address `addr` by opcode `op`: `space` and `value` are written by AddressOutOfRange
only (60_exceptions.md R214). -/
def Condition.record (c : Condition) (addr : PcWord) (op : Option Byte) (st : Status) : Status :=
  match c with
  | .addressOutOfRange space value =>
    { cause := c.cause, addr := addr, opcode := op, space := space, value := BitVec.ofNat 9 value }
  | .unknownInstruction | .unsupportedOperation | .divideByZero =>
    { st with cause := c.cause, addr := addr, opcode := op }

/-- Raising a condition: the one effect every condition has (60_exceptions.md R214). The core halts and STATUS records
why; registers, memory, FL, OUT and pc keep their values (R216). There is no handler to go to and no return (R220, R221):
nothing stands beside this operation. -/
def State.raise (s : State) (c : Condition) (op : Option Byte) : State :=
  { s with running := false, status := c.record s.pc op s.status }

/-- What a handler answers: the state after its effect, or the condition it raises. A condition carries no state, so an
instruction that raises one has written nothing (60_exceptions.md R216). -/
abbrev Handler := Except Condition State

/-- Settle the handler of the instruction with opcode `op`: its state, or the condition raised in the state `s` before the
instruction. -/
def settle (k : Kind) (s : State) (h : Handler) : Result :=
  match h with
  | .ok t => .next t
  | .error c => .next (s.raise c (some k.opcode))

end Sys2Proof.Machine
end

