-- ==== Sys2Proof/Machine/Flags.lean ====
section
/-! DEFINITION. The flag register FL (10_state.md R27): the value CMP writes (44_ext_alu.md R170) and the conditions the
jumps read (45_ext_control_memory.md R192 to R197). -/

namespace Sys2Proof.Machine

/-- FL.L, bit 2: less at the last CMP (00_scope.md R12). -/
def flagL (fl : Byte) : Bool := fl.getLsbD 2

/-- FL.G, bit 1: greater at the last CMP. -/
def flagG (fl : Byte) : Bool := fl.getLsbD 1

/-- FL.E, bit 0: equal at the last CMP. -/
def flagE (fl : Byte) : Bool := fl.getLsbD 0

/-- `cmpflags(a, b)`, unsigned (44_ext_alu.md R169, R170). -/
def cmpflags (a b : Byte) : Byte :=
  (if a.toNat < b.toNat then 0b100 else 0) +
  (if a.toNat > b.toNat then 0b010 else 0) +
  (if a.toNat = b.toNat then 0b001 else 0)

/-- JEQ's condition (45_ext_control_memory.md R192). -/
def condEq (fl : Byte) : Bool := flagE fl

/-- JNE's condition (R193). -/
def condNe (fl : Byte) : Bool := !flagE fl

/-- JGT's condition (R194). -/
def condGt (fl : Byte) : Bool := flagG fl

/-- JLT's condition (R195). -/
def condLt (fl : Byte) : Bool := flagL fl

/-- JLE's condition (R196). -/
def condLe (fl : Byte) : Bool := flagL fl || flagE fl

/-- JGE's condition (R197). -/
def condGe (fl : Byte) : Bool := flagG fl || flagE fl

end Sys2Proof.Machine
end

