-- ==== Sys2Proof/Machine/Operands.lean ====
section
/-! DEFINITION. The operand forms: a register operand is the whole operand byte (30_encoding.md R63), LDI's immediate is the
byte itself, and every memory address comes from a register (R63). -/

namespace Sys2Proof.Machine

/-- The operand byte that names register `i` (30_encoding.md R63). -/
abbrev regByte (i : Fin 8) : Byte := BitVec.ofNat 8 i.val

/-- The check of a register operand: the index it names, or AddressOutOfRange(REGISTER, index). The byte is never masked
(10_state.md R34, 30_encoding.md R63). -/
def regIndex (b : Byte) : Except Condition (Fin 8) :=
  if h : b.toNat < 8 then .ok ⟨b.toNat, h⟩ else .error (.addressOutOfRange .register b.toNat)

/-- The address a register holds, for LD and ST: its value as it is (45_ext_control_memory.md R199). -/
def State.addrIn (s : State) (i : Fin 8) : Nat :=
  (s.reg i).toNat

end Sys2Proof.Machine
end

