-- ==== Sys2Proof/Machine/Alu.lean ====
section
/-! DEFINITION. The ALU: a pure function of a tag and two bytes (41_alu.md R100), with the tags of both profiles (R101,
44_ext_alu.md R160), and the two shapes of an ALU instruction (41_alu.md R104, 44_ext_alu.md R161). -/

namespace Sys2Proof.Machine

/-- The operation tags (41_alu.md R101, 44_ext_alu.md R160). -/
inductive AluTag where
  | add | mul
  | sub | div | mod | inc | dec | and | or | xor | not | shl | shr | cmp
  deriving DecidableEq, Repr

/-- The tags a profile's ALU supports: ADD and MUL in BASE, all of them in EXTENDED (41_alu.md R101). -/
def AluTag.supported (o : OpSet) (t : AluTag) : Bool :=
  match o, t with
  | .extended, _ => true
  | .base, .add | .base, .mul => true
  | .base, .sub | .base, .div | .base, .mod | .base, .inc | .base, .dec | .base, .and | .base, .or => false
  | .base, .xor | .base, .not | .base, .shl | .base, .shr | .base, .cmp => false

/-- What the ALU gives: a result, or, for CMP, the flag value (41_alu.md R100). -/
inductive AluOut where
  | value (v : Byte)
  | flags (fl : Byte)
  deriving DecidableEq, Repr

/-- The value of each supported operation (41_alu.md R101, 44_ext_alu.md R160). A division by 0 gives no value; the check
of DIV and MOD (44_ext_alu.md R164, R165) is made here. -/
def aluApply (t : AluTag) (a b : Byte) : Except Condition AluOut :=
  match t with
  | .add => .ok (.value (trunc8 (a.toNat + b.toNat)))
  | .mul => .ok (.value (trunc8 (a.toNat * b.toNat)))
  | .sub => .ok (.value (trunc8 (a.toNat - b.toNat)))
  | .div => if b.toNat = 0 then .error .divideByZero else .ok (.value (BitVec.ofNat 8 (a.toNat / b.toNat)))
  | .mod => if b.toNat = 0 then .error .divideByZero else .ok (.value (BitVec.ofNat 8 (a.toNat % b.toNat)))
  | .inc => .ok (.value (trunc8 (a.toNat + 1)))
  | .dec => .ok (.value (trunc8 (a.toNat - 1)))
  | .and => .ok (.value (a &&& b))
  | .or => .ok (.value (a ||| b))
  | .xor => .ok (.value (a ^^^ b))
  | .not => .ok (.value (trunc8 (255 - a.toNat)))
  | .shl => .ok (.value (trunc8 (a.toNat * 2 ^ b.toNat)))
  | .shr => .ok (.value (BitVec.ofNat 8 (a.toNat / 2 ^ b.toNat)))
  | .cmp => .ok (.flags (cmpflags a b))

/-- `apply(tag, a, b)`: a tag the profile does not support raises UnsupportedOperation (41_alu.md R102, 60_exceptions.md
R213). No program reaches that, because the dispatcher's handler map is the profile's (log entry 7). -/
def alu (o : OpSet) (t : AluTag) (a b : Byte) : Except Condition AluOut :=
  if t.supported o then aluApply t a b else .error .unsupportedOperation

/-- Write what the ALU gave: a result to `x[i]`, flags to FL (44_ext_alu.md R161, R172). -/
def State.writeAlu (s : State) (i : Fin 8) : AluOut → State
  | .value v => s.setReg i v
  | .flags fl => s.setFl fl

/-- An ALU instruction of format F2RR: check `ra`, check `rb`, read both, apply, write (41_alu.md R104). -/
def aluBinary (t : AluTag) (ra rb : Byte) (s : State) : Handler := do
  let i ← regIndex ra
  let j ← regIndex rb
  let r ← alu s.opset t (s.reg i) (s.reg j)
  pure ((s.writeAlu i r).advance 2)

/-- An ALU instruction of format F1R, whose second input is ignored (44_ext_alu.md R160, R161). -/
def aluUnary (t : AluTag) (ra : Byte) (s : State) : Handler := do
  let i ← regIndex ra
  let r ← alu s.opset t (s.reg i) 0
  pure ((s.writeAlu i r).advance 1)

end Sys2Proof.Machine
end

