-- ==== Sys2Proof/Machine/BaseAlu.lean ====
section
/-! DEFINITION. The BASE arithmetic instructions (41_alu.md). -/

namespace Sys2Proof.Machine

/-- ADD: `x[ra] <- trunc8(x[ra] + x[rb])` (41_alu.md R105). -/
def execAdd (ra rb : Byte) (s : State) : Result :=
  settle .add s (aluBinary .add ra rb s)

/-- MUL: `x[ra] <- trunc8(x[ra] * x[rb])`, on registers only (41_alu.md R108, R109). -/
def execMul (ra rb : Byte) (s : State) : Result :=
  settle .mul s (aluBinary .mul ra rb s)

end Sys2Proof.Machine
end

