-- ==== Sys2Proof/Machine/Control.lean ====
section
/-! DEFINITION. Halt, call and return: HLT, CALL, RET (43_control.md). -/

namespace Sys2Proof.Machine

/-- HLT: halt normally; pc then advances by 1 (43_control.md R140, 30_encoding.md R75). -/
def execHlt (s : State) : Result :=
  settle .hlt s (.ok ((s.halt Kind.hlt.opcode).advance 0))

/-- CALL's return address, the address after its own two bytes (43_control.md R144), checked to fit a byte: 256 or more
raises AddressOutOfRange(MEMORY) (R143). -/
def returnAddress (s : State) : Except Condition Nat :=
  let ret := s.pc.toNat + 2
  if Config.memSize ≤ ret then .error (.addressOutOfRange .memory ret) else .ok ret

/-- CALL: push the return address and go to `x[ra]`, read after the push (43_control.md R143). -/
def execCall (ra : Byte) (s : State) : Result :=
  settle .call s do
    let i ← regIndex ra
    let ret ← returnAddress s
    let s1 := s.decSp
    let s2 ← memWrite s1 s1.sp.toNat (BitVec.ofNat 8 ret)
    pure (s2.jump (s2.reg i))

/-- RET: go to the byte at SP and increment SP (43_control.md R146). -/
def execRet (s : State) : Result :=
  settle .ret s do
    let t ← memRead s s.sp.toNat
    pure (s.jump t).incSp

end Sys2Proof.Machine
end

