-- ==== Sys2Proof/Machine/DataOutput.lean ====
section
/-! DEFINITION. Data movement, output and stack: LDI, PRN, PUSH, POP (42_data_output.md). -/

namespace Sys2Proof.Machine

/-- LDI: `x[ra] <- imm` (42_data_output.md R120). -/
def execLdi (ra imm : Byte) (s : State) : Result :=
  settle .ldi s do
    let i ← regIndex ra
    pure ((s.setReg i imm).advance 2)

/-- PRN: `out(x[ra])` (42_data_output.md R124). -/
def execPrn (ra : Byte) (s : State) : Result :=
  settle .prn s do
    let i ← regIndex ra
    pure ((s.emit (s.reg i)).advance 1)

/-- PUSH: decrement SP, then store `x[ra]`, read after SP changed, at SP (42_data_output.md R128). -/
def execPush (ra : Byte) (s : State) : Result :=
  settle .push s do
    let i ← regIndex ra
    let s1 := s.decSp
    let s2 ← memWrite s1 s1.sp.toNat (s1.reg i)
    pure (s2.advance 1)

/-- POP: read at SP, write `x[ra]`, then increment SP, read after that write (42_data_output.md R131). -/
def execPop (ra : Byte) (s : State) : Result :=
  settle .pop s do
    let i ← regIndex ra
    let v ← memRead s s.sp.toNat
    let s1 := s.setReg i v
    pure (s1.incSp.advance 1)

end Sys2Proof.Machine
end

