-- ==== Sys2Proof/Machine/ExtAlu.lean ====
section
/-! DEFINITION. The EXTENDED ALU instructions (44_ext_alu.md). -/

namespace Sys2Proof.Machine

/-- SUB: `x[ra] <- trunc8(x[ra] - x[rb])` (44_ext_alu.md R162). -/
def execSub (ra rb : Byte) (s : State) : Result :=
  settle .sub s (aluBinary .sub ra rb s)

/-- DIV: `x[ra] <- x[ra] div x[rb]`; a zero divisor raises DivideByZero (44_ext_alu.md R164). -/
def execDiv (ra rb : Byte) (s : State) : Result :=
  settle .div s (aluBinary .div ra rb s)

/-- MOD: `x[ra] <- x[ra] mod x[rb]`; a zero divisor raises DivideByZero (44_ext_alu.md R165). -/
def execMod (ra rb : Byte) (s : State) : Result :=
  settle .mod s (aluBinary .mod ra rb s)

/-- INC: `x[ra] <- trunc8(x[ra] + 1)` (44_ext_alu.md R167). -/
def execInc (ra : Byte) (s : State) : Result :=
  settle .inc s (aluUnary .inc ra s)

/-- DEC: `x[ra] <- trunc8(x[ra] - 1)` (44_ext_alu.md R168). -/
def execDec (ra : Byte) (s : State) : Result :=
  settle .dec s (aluUnary .dec ra s)

/-- CMP: `FL <- cmpflags(x[ra], x[rb])`, no register written (44_ext_alu.md R172). -/
def execCmp (ra rb : Byte) (s : State) : Result :=
  settle .cmp s (aluBinary .cmp ra rb s)

/-- AND: bitwise AND (44_ext_alu.md R173). -/
def execAnd (ra rb : Byte) (s : State) : Result :=
  settle .and s (aluBinary .and ra rb s)

/-- OR: bitwise OR (44_ext_alu.md R174). -/
def execOr (ra rb : Byte) (s : State) : Result :=
  settle .or s (aluBinary .or ra rb s)

/-- XOR: bitwise exclusive OR (44_ext_alu.md R175). -/
def execXor (ra rb : Byte) (s : State) : Result :=
  settle .xor s (aluBinary .xor ra rb s)

/-- NOT: `x[ra] <- 255 - x[ra]` (44_ext_alu.md R176). -/
def execNot (ra : Byte) (s : State) : Result :=
  settle .not s (aluUnary .not ra s)

/-- SHL: `x[ra] <- trunc8(x[ra] * 2^x[rb])`, 0 from 8 on (44_ext_alu.md R177, R178). -/
def execShl (ra rb : Byte) (s : State) : Result :=
  settle .shl s (aluBinary .shl ra rb s)

/-- SHR: `x[ra] <- x[ra] div 2^x[rb]`, 0 from 8 on (44_ext_alu.md R177, R179). -/
def execShr (ra rb : Byte) (s : State) : Result :=
  settle .shr s (aluBinary .shr ra rb s)

end Sys2Proof.Machine
end

