-- ==== Sys2Proof/Machine/ExtControlMemory.lean ====
section
/-! DEFINITION. The EXTENDED jumps and memory instructions (45_ext_control_memory.md). -/

namespace Sys2Proof.Machine

/-- The form of every jump: the register index is checked whether or not the jump is taken; not taken, pc advances by 2
(45_ext_control_memory.md R191, 30_encoding.md R75). -/
def jumpIf (taken : Bool) (ra : Byte) (s : State) : Handler := do
  let i ← regIndex ra
  pure (if taken then s.jump (s.reg i) else s.advance 1)

/-- JMP: always taken (45_ext_control_memory.md R190). -/
def execJmp (ra : Byte) (s : State) : Result :=
  settle .jmp s (jumpIf true ra s)

/-- JEQ: taken if E = 1 (45_ext_control_memory.md R192). -/
def execJeq (ra : Byte) (s : State) : Result :=
  settle .jeq s (jumpIf (condEq s.fl) ra s)

/-- JNE: taken if E = 0 (45_ext_control_memory.md R193). -/
def execJne (ra : Byte) (s : State) : Result :=
  settle .jne s (jumpIf (condNe s.fl) ra s)

/-- JGT: taken if G = 1 (45_ext_control_memory.md R194). -/
def execJgt (ra : Byte) (s : State) : Result :=
  settle .jgt s (jumpIf (condGt s.fl) ra s)

/-- JLT: taken if L = 1 (45_ext_control_memory.md R195). -/
def execJlt (ra : Byte) (s : State) : Result :=
  settle .jlt s (jumpIf (condLt s.fl) ra s)

/-- JLE: taken if L = 1 or E = 1 (45_ext_control_memory.md R196). -/
def execJle (ra : Byte) (s : State) : Result :=
  settle .jle s (jumpIf (condLe s.fl) ra s)

/-- JGE: taken if G = 1 or E = 1 (45_ext_control_memory.md R197). -/
def execJge (ra : Byte) (s : State) : Result :=
  settle .jge s (jumpIf (condGe s.fl) ra s)

/-- LD: `x[ra] <- MemRead(x[rb], 1)` (45_ext_control_memory.md R200). -/
def execLd (ra rb : Byte) (s : State) : Result :=
  settle .ld s do
    let i ← regIndex ra
    let j ← regIndex rb
    let v ← memRead s (s.addrIn j)
    pure ((s.setReg i v).advance 2)

/-- ST: `MemWrite(x[ra], 1, x[rb])`; the address register comes first (45_ext_control_memory.md R201). -/
def execSt (ra rb : Byte) (s : State) : Result :=
  settle .st s do
    let i ← regIndex ra
    let j ← regIndex rb
    let t ← memWrite s (s.addrIn i) (s.reg j)
    pure (t.advance 2)

end Sys2Proof.Machine
end

