-- ==== Sys2Proof/Machine/Fetch.lean ====
section
/-! DEFINITION. The first part of the dispatch cycle (30_encoding.md R67 steps 1 to 4): fetch, operand count, operand reads,
handler lookup, with the conditions each can raise (R68, R72; priority 60_exceptions.md R217). -/

namespace Sys2Proof.Machine

/-- A condition raised before a handler runs, with the opcode byte STATUS records: none when the fetch itself failed
(10_state.md R29). -/
structure FetchFailure where
  cond : Condition
  opcode : Option Byte
  deriving DecidableEq, Repr

/-- Read `n` operand bytes from address `a` on, in rising order; the addresses do not wrap (20_memory.md R47). -/
def readOperands (s : State) (a : Nat) : Nat → Except Condition (List Byte)
  | 0 => .ok []
  | n + 1 => do
    let b ← memRead s a
    let rest ← readOperands s (a + 1) n
    pure (b :: rest)

/-- Read the opcode at pc and as many operand bytes as its count asks for (30_encoding.md R67 steps 1 to 3, R68). -/
def fetchBytes (s : State) : Except FetchFailure (List Byte) :=
  match memRead s s.pc.toNat with
  | .error c => .error ⟨c, none⟩
  | .ok op =>
    match readOperands s (s.pc.toNat + 1) (operandCount op) with
    | .error c => .error ⟨c, some op⟩
    | .ok rest => .ok (op :: rest)

/-- The instruction at pc, or the condition that keeps it from running (30_encoding.md R67 steps 1 to 4). -/
def fetchInstr (s : State) : Except FetchFailure Instr :=
  match fetchBytes s with
  | .error f => .error f
  | .ok bytes =>
    match decode s.opset bytes with
    | .ok (i, _) => .ok i
    | .error _ => .error ⟨.unknownInstruction, bytes.head?⟩

/-- Store the bytes at address `a` and on; those that would lie past the last address are dropped. -/
def storeBytes (m : Memory) (a : Nat) : List Byte → Memory
  | [] => m
  | b :: bs => storeBytes (if a < Config.memSize then m.set a b else m) (a + 1) bs

/-- The profile in which the opcode has a handler: the machine's own if it maps it, else EXTENDED if that does. -/
def profileFor (o : OpSet) (op : Byte) : OpSet :=
  if (lookup o op).isSome then o else if (lookup .extended op).isSome then .extended else o

end Sys2Proof.Machine
end

