-- ==== Sys2Proof/Machine/Step.lean ====
section
/-! DEFINITION. One step of the core: one pass of the dispatcher's loop body (30_encoding.md R66, R67). -/

namespace Sys2Proof.Machine

/-- One step. While running: fetch and decode, then the handler, or the condition the fetch, the operand reads or the
lookup raised. A halted core has no step (30_encoding.md R66). -/
def step (s : State) : Host.Outcome State Fault Refusal :=
  if s.running then
    match fetchInstr s with
    | .ok i => exec i s
    | .error f => .next (s.raise f.cond f.opcode)
  else .fault .halted

/-- `s` with one instruction word of the opcode table stored at pc, all three bytes of it, set up so that the next step runs
it: the profile is EXTENDED when only that one has the opcode, and a halted core is started. Bytes that would lie past
address 255 are dropped. DESIGN CHOICE (log entry 5), safe: it stands for the host's load and start and is no move of the
core. -/
def State.withFetchWord (s : State) (nbits w : Nat) : State :=
  { s with
    opset := profileFor s.opset ((tableBytes nbits w).headD 0)
    running := true
    status := if s.running then s.status else { s.status with cause := .none }
    mem := storeBytes s.mem s.pc.toNat (tableBytes nbits w) }

end Sys2Proof.Machine
end

