-- ==== Sys2Proof/Machine/HostView.lean ====
section
/-! DEFINITION. What the host makes of the core: the lines of OUT (42_data_output.md R122) and the report on a halted core
(70_reset_and_hazards.md R252). Nothing in the core depends on it. -/

namespace Sys2Proof.Machine

/-- One output line: the decimal digits of the byte, no leading zeros (42_data_output.md R122). -/
def decimalLine (v : Byte) : List Char :=
  if v.toNat < 10 then [Nat.digitChar v.toNat]
  else if v.toNat < 100 then [Nat.digitChar (v.toNat / 10), Nat.digitChar (v.toNat % 10)]
  else [Nat.digitChar (v.toNat / 100), Nat.digitChar (v.toNat / 10 % 10), Nat.digitChar (v.toNat % 10)]

/-- The output the host prints: one line per entry of OUT, in order (42_data_output.md R122, R123). -/
def State.outLines (s : State) : List (List Char) :=
  s.out.map decimalLine

/-- What the host reports of a core (70_reset_and_hazards.md R252). -/
inductive Report where
  /-- The core still runs: there is nothing to report. -/
  | stillRunning
  /-- HLT: nothing is reported. -/
  | nothing
  /-- UnknownInstruction: the address and the opcode. -/
  | unknownInstruction (addr : PcWord) (opcode : Option Byte)
  /-- A fatal execution error, with the record. -/
  | fatal (status : Status)
  deriving DecidableEq, Repr

/-- The host's report, read from STATUS (70_reset_and_hazards.md R252). -/
def State.report (s : State) : Report :=
  match s.status.cause with
  | .none => .stillRunning
  | .halt => .nothing
  | .unknownInstruction => .unknownInstruction s.status.addr s.status.opcode
  | .addressOutOfRange | .unsupportedOperation | .divideByZero => .fatal s.status

end Sys2Proof.Machine
end

