-- ==== Sys2Proof/Machine/Launch.lean ====
section
/-! DEFINITION. Load and reset, the host's acts (70_reset_and_hazards.md R240, R241, R243, R249, R250, R251). -/

namespace Sys2Proof.Machine

/-- The launch parameters (00_scope.md R8): the profile, the start values of R0 to R6 and the start memory image. -/
structure Launch where
  opset : OpSet
  rInit : Vector Byte 7
  memInit : Vector Byte 256
  deriving DecidableEq, Repr

/-- The canonical memory that holds these bytes from address `a` on. -/
def Memory.ofBytes (a : Nat) : List Byte → Memory
  | [] => []
  | b :: bs => if b = Memory.unlisted then Memory.ofBytes (a + 1) bs else (a, b) :: Memory.ofBytes (a + 1) bs

/-- The state after reset for these launch parameters (70_reset_and_hazards.md R240). The STATUS fields other than the cause
are unspecified there. DESIGN CHOICE (log entry 3), unsafe. -/
def State.launch (l : Launch) : State where
  opset := l.opset
  regs := { r0 := l.rInit[0], r1 := l.rInit[1], r2 := l.rInit[2], r3 := l.rInit[3], r4 := l.rInit[4], r5 := l.rInit[5],
            r6 := l.rInit[6], r7 := Config.spInit }
  pc := Config.pcReset
  running := true
  status := { cause := .none, addr := 0, opcode := none, space := .memory, value := 0 }
  mem := Memory.ofBytes 0 l.memInit.toList
  out := []
  fl := Config.flInit

/-- Loading a program image: its bytes go to addresses 0 and on, over what the memory held (70_reset_and_hazards.md R241).
The host refuses an image of more than 256 bytes (R251). -/
def loadImage (image : List Byte) (before : Vector Byte 256) : Option (Vector Byte 256) :=
  if image.length ≤ Config.memSize then some (Vector.ofFn fun a => image.getD a.val before[a]) else none

/-! ### The program image as text (70_reset_and_hazards.md R250); nothing in the core depends on it -/

/-- The value of binary digits after `acc`, or none where a character is no binary digit. -/
def binaryDigits (acc : Nat) : List Char → Option Nat
  | [] => some acc
  | '0' :: cs => binaryDigits (2 * acc) cs
  | '1' :: cs => binaryDigits (2 * acc + 1) cs
  | _ :: _ => none

/-- The byte of one image line: the text before a `#`, spaces around it left out, when it is an 8-character binary literal. A
blank, commented or malformed line gives none (R250). That spaces around the literal do not count is a DESIGN CHOICE (log
entry 14). -/
def imageByte (line : List Char) : Option Byte :=
  let text := ((line.takeWhile fun c => c != '#').dropWhile fun c => c == ' ').reverse.dropWhile fun c => c == ' '
  if text.length = 8 then (binaryDigits 0 text.reverse).map fun n => BitVec.ofNat 8 n else none

/-- The image a text describes: one byte for each line that gives one, in order; the others are skipped (R250). -/
def imageOfLines (lines : List (List Char)) : List Byte :=
  lines.filterMap imageByte

end Sys2Proof.Machine
end

