-- ==== Sys2Proof/Safety.lean ====
section
/-! DEFINITION. What counts as a safe run and a normal end (60_exceptions.md R219), the invariant of the core's state, and the
states a run reaches. -/

namespace Sys2Proof.Machine

/-- The run has ended with HLT: the only normal end (60_exceptions.md R219, 43_control.md R140). -/
def State.endedNormally (s : State) : Bool :=
  !s.running && decide (s.status.cause = .halt)

/-- The run has stopped on a condition: a failure, never a successful end (60_exceptions.md R219). -/
def State.faultStopped (s : State) : Bool :=
  !s.running && decide (s.status.cause ≠ .halt)

/-- The values FL can hold: 0 before the first CMP, else exactly one of E, G and L (44_ext_alu.md R170, R171). -/
def legalFlags (fl : Byte) : Bool :=
  decide (fl ∈ [0b000, 0b001, 0b010, 0b100])

/-- What STATUS can hold, for each cause (10_state.md R29, 60_exceptions.md R210, R211, R214): the address is one pc can
hold; HALT was written by HLT's opcode, UNKNOWN_INSTRUCTION by an opcode without handler, DIVIDE_BY_ZERO in EXTENDED only;
an out-of-range value is 256, or a register index of 8 to 255; only a failed fetch, at 256, records no opcode; and
UNSUPPORTED_OPERATION never stands there (R213). That a memory value is never 257, which R29 and R211 name as well, is DEDUCED
from the order of the operand reads (30_encoding.md R67, 60_exceptions.md R217; log entry 15). -/
def Status.legal (o : OpSet) (st : Status) : Bool :=
  match st.cause with
  | .none => true
  | .halt => decide (st.addr.toNat < 256) && decide (st.opcode = some Kind.hlt.opcode)
  | .unknownInstruction =>
    decide (st.addr.toNat < 256) && (match st.opcode with | some op => (lookup o op).isNone | none => false)
  | .addressOutOfRange =>
    match st.space with
    | .memory =>
      decide (st.value.toNat = 256) && decide (st.addr.toNat ≤ 256) &&
        decide (st.opcode = none ↔ st.addr.toNat = 256)
    | .register =>
      decide (8 ≤ st.value.toNat) && decide (st.value.toNat < 256) && decide (st.addr.toNat < 256) && st.opcode.isSome
  | .unsupportedOperation => false
  | .divideByZero =>
    decide (o = .extended) && decide (st.addr.toNat < 256) &&
      decide (st.opcode = some Kind.div.opcode ∨ st.opcode = some Kind.mod.opcode)

/-- The invariant of the core: memory is in canonical form; pc is 0..256 (10_state.md R26); FL holds a legal value, and 0 in
BASE, where nothing writes it (R27); `running` says that no cause is recorded (R28, R29); STATUS is legal. -/
structure State.Inv (s : State) : Prop where
  mem_wf : s.mem.wf = true
  pc_le : s.pc.toNat ≤ 256
  fl_legal : legalFlags s.fl = true
  fl_base : s.opset = .base → s.fl = 0
  running_iff : s.running = true ↔ s.status.cause = .none
  status_legal : s.status.legal s.opset = true

/-- `t` is reached from `s` by steps that each answer a next state. -/
inductive Reaches (s : State) : State → Prop where
  | refl : Reaches s s
  | tail {t u : State} : Reaches s t → step t = .next u → Reaches s u

end Sys2Proof.Machine
end

