-- ==== Sys2Proof/Certificates/Slice0/Obligations.lean ====
section
/-! DEFINITION. The statements about the LS-8 core, for the provers. A docstring names the rule of spec/ a statement formalises;
where a statement rests on a choice of the model, it names the log entry. -/

open Sys2Proof Sys2Proof.Machine

/-! ### Reset and launch -/

/-- 70_reset_and_hazards.md R240, 10_state.md R24: the reset table, item by item, for every value of the launch parameters. -/
def Obligations.LaunchSetsEveryItemOfTheResetTable : Prop :=
  ∀ l : Launch,
    (State.launch l).reg 7 = 0xF4 ∧
    (∀ i : Fin 7, (State.launch l).reg i.castSucc = l.rInit[i]) ∧
    (State.launch l).pc = 0 ∧
    (State.launch l).running = true ∧
    (State.launch l).status.cause = .none ∧
    (∀ a : Fin 256, (State.launch l).mem.get a.val = l.memInit[a]) ∧
    (State.launch l).out = [] ∧
    (State.launch l).fl = 0 ∧
    (State.launch l).opset = l.opset

/-- `State.reset` is the launch with the values the log names: BASE (log entry 4), R0 to R6 and memory all zero (log entries 1
and 2). These values are the model's choice, not the spec's. -/
def Obligations.ResetIsTheLaunchWithTheLoggedValues : Prop :=
  State.reset = State.launch ⟨.base, Vector.replicate 7 0, Vector.replicate 256 0⟩

/-- The invariant holds at `State.reset`. -/
def Obligations.ResetSatisfiesTheInvariant : Prop :=
  State.reset.Inv

/-- The invariant holds after every launch. -/
def Obligations.EveryLaunchSatisfiesTheInvariant : Prop :=
  ∀ l : Launch, (State.launch l).Inv

/-- 70_reset_and_hazards.md R251: the host refuses an image of more than 256 bytes; R241: a shorter image stands at addresses 0
and on, and the bytes it does not cover are as they were. -/
def Obligations.LoadedImageStandsFromAddressZeroOrIsRefused : Prop :=
  ∀ (image : List Byte) (before : Vector Byte 256),
    (256 < image.length → loadImage image before = none) ∧
    (image.length ≤ 256 → ∃ m, loadImage image before = some m ∧
      ∀ a : Fin 256, m[a] = if h : a.val < image.length then image[a.val] else before[a])

/-! ### Whole-machine rules -/

/-- Every step keeps the invariant: canonical memory, pc at most 256, a legal FL (0 in BASE), `running` exactly while no cause
is recorded, and a legal STATUS. That an out-of-range memory address in STATUS is exactly 256 is the model's reading (log entry
15): 10_state.md R29 and 60_exceptions.md R211 name 257 as well, but the operand bytes are read in rising order (30_encoding.md
R67, 60_exceptions.md R217). -/
def Obligations.EveryStepKeepsTheInvariant : Prop :=
  ∀ s t : State, s.Inv → step s = .next t → t.Inv

/-- 43_control.md R141: once HLT has executed, no instruction executes and nothing changes; so in any halted state: no step has a
next state, and the only state reached is that state itself. -/
def Obligations.AHaltedCoreStaysAsItIs : Prop :=
  (∀ s : State, s.running = false → (∀ t, step s ≠ .next t) ∧ ∀ t, Reaches s t → t = s) ∧
  (∀ s u : State, exec .hlt s = .next u → u.running = false ∧ (∀ t, step u ≠ .next t) ∧ ∀ t, Reaches u t → t = u)

/-- A running core always has a next state: no instruction faults or is refused, and every condition is a next state. A halted
core has none; that the model answers `Fault.halted` there is its own choice (log entry 6). -/
def Obligations.AStepExistsExactlyWhileRunning : Prop :=
  (∀ s : State, s.running = true → ∃ t, step s = .next t) ∧
  (∀ s : State, s.running = false → step s = .fault .halted)

/-- The ALU raises UnsupportedOperation for a tag its profile does not support, as a condition and never as a value (41_alu.md
R102); BASE supports ADD and MUL alone (R101); and no step records that cause (60_exceptions.md R213). That the ALU's gate is the
profile is the model's reading (log entry 7). -/
def Obligations.TheAluRefusesOtherTagsAndNoStepRecordsThat : Prop :=
  (∀ (o : OpSet) (g : AluTag) (a b : Byte), g.supported o = false → alu o g a b = .error .unsupportedOperation) ∧
  (∀ g : AluTag, g.supported .base = true ↔ g = .add ∨ g = .mul) ∧
  (∀ s t : State, step s = .next t → s.status.cause ≠ .unsupportedOperation →
    t.status.cause ≠ .unsupportedOperation)

/-- 44_ext_alu.md R171: only CMP writes FL, and FL is 0 after a launch. -/
def Obligations.OnlyCmpWritesTheFlags : Prop :=
  (∀ (i : Instr) (s t : State), exec i s = .next t → (∀ ra rb, i ≠ .cmp ra rb) → t.fl = s.fl) ∧
  (∀ l : Launch, (State.launch l).fl = 0)

/-- 42_data_output.md R123: PRN appends one byte and no other instruction appends any; a PRN that raises emits nothing. -/
def Obligations.OnlyACompletedPrnAppendsOneOutput : Prop :=
  (∀ (i : Instr) (s t : State), exec i s = .next t → (∀ ra, i ≠ .prn ra) → t.out = s.out) ∧
  (∀ (s t : State) (i : Fin 8), exec (.prn (regByte i)) s = .next t → t.out = s.out ++ [s.reg i]) ∧
  (∀ (s t : State) (ra : Byte), 8 ≤ ra.toNat → exec (.prn ra) s = .next t → t.out = s.out)

/-- The profile is fixed for the run (00_scope.md R4; the field is the model's own, log entry 4). -/
def Obligations.NoStepChangesTheProfile : Prop :=
  ∀ s t : State, step s = .next t → t.opset = s.opset

/-- 60_exceptions.md R216: a step that halts on a condition has written nothing but `running` and STATUS. -/
def Obligations.ConditionsArePrecise : Prop :=
  ∀ s t : State, step s = .next t → t.running = false → t.status.cause ≠ .halt →
    t = { s with running := false, status := t.status } ∧ t.status.addr = s.pc

/-- No instruction of BASE reads or writes FL (10_state.md, section 3): two BASE cores that differ in FL alone step to states
that differ in FL alone, each with the FL it had. -/
def Obligations.BaseNeitherReadsNorWritesTheFlags : Prop :=
  ∀ (s t : State) (f : Byte), s.opset = .base → step s = .next t → step { s with fl := f } = .next { t with fl := f }

/-- 10_state.md R26: pc holds 0..256 and resets to 0; 256 arises only from a sequential advance past address 255; a fetch at
256 raises AddressOutOfRange and does not wrap. -/
def Obligations.PcStaysInRangeAndDoesNotWrap : Prop :=
  (∀ l : Launch, (State.launch l).pc = 0) ∧
  (∀ s t : State, s.pc.toNat ≤ 256 → step s = .next t → t.pc.toNat ≤ 256) ∧
  (∀ s t : State, s.pc.toNat < 256 → step s = .next t → t.pc.toNat = 256 →
    s.pc.toNat + 1 + operandCount (s.mem.get s.pc.toNat) = 256) ∧
  (∀ s : State, s.running = true → s.pc.toNat = 256 →
    step s = .next (s.raise (.addressOutOfRange .memory 256) none))

/-- An instruction that is no control transfer (opcode bit 4 clear) either advances pc past its own bytes or raises a condition,
and so do the conditional jumps that are not taken (30_encoding.md, section 3). -/
def Obligations.PcAdvancesPastInstructionsThatDoNotTransfer : Prop :=
  ∀ (i : Instr) (s t : State), exec i s = .next t → bitField i.kind.opcode 4 4 = 0 →
    (t.pc = s.pc + BitVec.ofNat 9 (encode i).length ∨ ∃ c, t = s.raise c (some i.kind.opcode))

/-- The only step that ends a run normally is one that fetches HLT (43_control.md, section 1), and pc then is one past it. -/
def Obligations.ARunEndsNormallyOnlyAtHlt : Prop :=
  ∀ s t : State, step s = .next t → t.running = false → t.status.cause = .halt →
    s.pc.toNat < 256 ∧ s.mem.get s.pc.toNat = 0x01 ∧ t.pc.toNat = s.pc.toNat + 1 ∧ t.status.addr = s.pc

/-! ### Encoding and decoding -/

/-- Decoding the bytes of an instruction gives it back, with every operand byte at every value, and leaves what follows. -/
def Obligations.DecodeOfEncodeGivesTheInstruction : Prop :=
  ∀ (o : OpSet) (i : Instr) (rest : List Byte), i.inProfile o = true → decode o (encode i ++ rest) = .ok (i, rest)

/-- The decoder accepts nothing but encodings: what it reads is an instruction of the profile, and the bytes are that
instruction's followed by the rest. -/
def Obligations.DecodedBytesAreTheEncodingAndTheRest : Prop :=
  ∀ (o : OpSet) (bytes rest : List Byte) (i : Instr), decode o bytes = .ok (i, rest) →
    bytes = encode i ++ rest ∧ i.inProfile o = true

/-- 30_encoding.md R71: the fields of every assigned opcode. -/
def Obligations.OpcodeFieldsAgreeWithTheTable : Prop :=
  ∀ k : Kind,
    bitField k.opcode 7 6 = k.format.operandCount ∧
    (bitField k.opcode 5 5 = 1 ↔
      k ∈ [Kind.add, .mul, .sub, .div, .mod, .inc, .dec, .cmp, .and, .or, .xor, .not, .shl, .shr]) ∧
    (bitField k.opcode 4 4 = 1 ↔ k ∈ [Kind.call, .ret, .jmp, .jeq, .jne, .jgt, .jlt, .jle, .jge])

/-- Words written out from 30_encoding.md R64 and R65, one or more of each family, decode to what they stand for; SUB's opcode
has no handler in BASE, and 0x00 in neither profile. -/
def Obligations.SampleWordsDecodeToTheirInstructions : Prop :=
  decode .base [0b00000001] = .ok (.hlt, []) ∧
  decode .base [0b10000010, 0b00000011, 0b11111111] = .ok (.ldi 3 255, []) ∧
  decode .base [0b10100000, 0b00000000, 0b00000001] = .ok (.add 0 1, []) ∧
  decode .base [0b01010000, 0b00000001] = .ok (.call 1, []) ∧
  decode .extended [0b10100001, 0b00000000, 0b00000001] = .ok (.sub 0 1, []) ∧
  decode .extended [0b01010110, 0b00000010] = .ok (.jne 2, []) ∧
  decode .extended [0b10000100, 0b00000011, 0b00001001] = .ok (.st 3 9, []) ∧
  decode .base [0b10100001, 0b00000000, 0b00000001] = .error (.unknownOpcode 0xA1) ∧
  decode .extended [0b00000000] = .error (.unknownOpcode 0x00)

/-! ### The dispatch cycle -/

/-- A step runs the decoded instruction: when the bytes at pc are those of an instruction of the profile, the step is `exec` of
it at that very state (30_encoding.md, section 3). -/
def Obligations.StepRunsTheDecodedInstruction : Prop :=
  ∀ (s : State) (i : Instr), s.running = true → i.inProfile s.opset = true →
    s.pc.toNat + (encode i).length ≤ 256 →
    (∀ (k : Nat) (h : k < (encode i).length), s.mem.get (s.pc.toNat + k) = (encode i)[k]) →
    step s = exec i s

/-- 30_encoding.md R72 and R76: an opcode without handler, its operand bytes once read, halts the core with UnknownInstruction and
changes nothing else, and no instruction executes after it; 247 bytes in BASE and 226 in EXTENDED are such, 0x00, 0x13, 0x52 and
0x48 in both. -/
def Obligations.UnmappedOpcodesHaltWithUnknownInstruction : Prop :=
  (∀ s : State, s.running = true →
    s.pc.toNat + operandCount (s.mem.get s.pc.toNat) < 256 →
    lookup s.opset (s.mem.get s.pc.toNat) = none →
    ∃ t, step s = .next t ∧
      t = { s with
        running := false
        status := { s.status with
          cause := .unknownInstruction, addr := s.pc, opcode := some (s.mem.get s.pc.toNat) } } ∧
      ∀ u, Reaches t u → u = t) ∧
  ((List.range 256).filter fun b => (lookup .base (BitVec.ofNat 8 b)).isNone).length = 247 ∧
  ((List.range 256).filter fun b => (lookup .extended (BitVec.ofNat 8 b)).isNone).length = 226 ∧
  (∀ (o : OpSet) (b : Byte), b ∈ [(0x00 : Byte), 0x13, 0x52, 0x48] → lookup o b = none)

/-- A fetch at 256 raises AddressOutOfRange(MEMORY, 256) with no opcode; an operand read past address 255 raises AddressOutOfRange
with the fetched opcode, whether or not that opcode has a handler (30_encoding.md, section 3). That such an operand read records
256, and never the 257 that 30_encoding.md R68 and 60_exceptions.md R211 name as well, is the model's reading (log entry 15): the
bytes are read in rising order, so the read at 256 fails first. -/
def Obligations.ReadsPastTheEndOfMemoryComeBeforeTheLookup : Prop :=
  (∀ s : State, s.running = true → s.pc.toNat = 256 →
    step s = .next (s.raise (.addressOutOfRange .memory 256) none)) ∧
  (∀ s : State, s.running = true → s.pc.toNat < 256 →
    256 ≤ s.pc.toNat + operandCount (s.mem.get s.pc.toNat) →
    step s = .next (s.raise (.addressOutOfRange .memory 256) (some (s.mem.get s.pc.toNat))))

/-- 60_exceptions.md R214: the one effect of each condition: `running` and STATUS are written, `space` and `value` by
AddressOutOfRange only, and nothing else changes. -/
def Obligations.RaisingWritesRunningAndStatusOnly : Prop :=
  ∀ (s : State) (op : Option Byte),
    s.raise .unknownInstruction op =
      { s with running := false, status := { s.status with cause := .unknownInstruction, addr := s.pc, opcode := op } } ∧
    s.raise .unsupportedOperation op =
      { s with running := false, status := { s.status with cause := .unsupportedOperation, addr := s.pc, opcode := op } } ∧
    s.raise .divideByZero op =
      { s with running := false, status := { s.status with cause := .divideByZero, addr := s.pc, opcode := op } } ∧
    (∀ (space : Space) (value : Nat), s.raise (.addressOutOfRange space value) op =
      { s with
        running := false
        status := { cause := .addressOutOfRange, addr := s.pc, opcode := op, space := space, value := BitVec.ofNat 9 value } })
    ∧ Cause.unknownInstruction.code = 2 ∧ Cause.addressOutOfRange.code = 3 ∧ Cause.unsupportedOperation.code = 4 ∧
    Cause.divideByZero.code = 5

/-- 10_state.md R34: an operand that names no register raises AddressOutOfRange(REGISTER, index), the first such operand in
operand order, before anything is written, in every instruction that has register operands. -/
def Obligations.ABadRegisterIndexRaisesBeforeAnyWrite : Prop :=
  ∀ (i : Instr) (s : State) (b : Byte), i.regOperands.find? (fun r => decide (8 ≤ r.toNat)) = some b →
    exec i s = .next (s.raise (.addressOutOfRange .register b.toNat) (some i.kind.opcode))

/-! ### The BASE instructions -/

/-- 41_alu.md R105: ADD. -/
def Obligations.AddSumsTwoRegistersModulo256 : Prop :=
  (∀ ra rb : Byte, encode (.add ra rb) = [0xA0, ra, rb]) ∧
  (∀ (s : State) (i j : Fin 8), exec (.add (regByte i) (regByte j)) s =
    .next { s with
      regs := s.regs.set i (BitVec.ofNat 8 (((s.reg i).toNat + (s.reg j).toNat) % 256))
      pc := s.pc + 3 }) ∧
  (∀ (s : State) (ra rb : Byte), 8 ≤ ra.toNat →
    exec (.add ra rb) s = .next (s.raise (.addressOutOfRange .register ra.toNat) (some 0xA0))) ∧
  (∀ (s : State) (ra rb : Byte), ra.toNat < 8 → 8 ≤ rb.toNat →
    exec (.add ra rb) s = .next (s.raise (.addressOutOfRange .register rb.toNat) (some 0xA0)))

/-- 41_alu.md R108: MUL, on registers only. -/
def Obligations.MulMultipliesTwoRegistersModulo256 : Prop :=
  (∀ ra rb : Byte, encode (.mul ra rb) = [0xA2, ra, rb]) ∧
  (∀ (s : State) (i j : Fin 8), exec (.mul (regByte i) (regByte j)) s =
    .next { s with
      regs := s.regs.set i (BitVec.ofNat 8 (((s.reg i).toNat * (s.reg j).toNat) % 256))
      pc := s.pc + 3 }) ∧
  (∀ (s : State) (ra rb : Byte), 8 ≤ ra.toNat →
    exec (.mul ra rb) s = .next (s.raise (.addressOutOfRange .register ra.toNat) (some 0xA2))) ∧
  (∀ (s : State) (ra rb : Byte), ra.toNat < 8 → 8 ≤ rb.toNat →
    exec (.mul ra rb) s = .next (s.raise (.addressOutOfRange .register rb.toNat) (some 0xA2)))

/-- 42_data_output.md R120: LDI; `LDI R7` sets SP. -/
def Obligations.LdiLoadsTheImmediate : Prop :=
  (∀ ra imm : Byte, encode (.ldi ra imm) = [0x82, ra, imm]) ∧
  (∀ (s : State) (i : Fin 8) (imm : Byte), exec (.ldi (regByte i) imm) s =
    .next { s with regs := s.regs.set i imm, pc := s.pc + 3 }) ∧
  (∀ (s : State) (ra imm : Byte), 8 ≤ ra.toNat →
    exec (.ldi ra imm) s = .next (s.raise (.addressOutOfRange .register ra.toNat) (some 0x82)))

/-- 42_data_output.md R124: PRN. -/
def Obligations.PrnAppendsTheRegisterToTheOutput : Prop :=
  (∀ ra : Byte, encode (.prn ra) = [0x47, ra]) ∧
  (∀ (s : State) (i : Fin 8), exec (.prn (regByte i)) s =
    .next { s with out := s.out ++ [s.reg i], pc := s.pc + 2 }) ∧
  (∀ (s : State) (ra : Byte), 8 ≤ ra.toNat →
    exec (.prn ra) s = .next (s.raise (.addressOutOfRange .register ra.toNat) (some 0x47)))

/-- 42_data_output.md R128: PUSH: SP goes down by one, modulo 256, and the register, read after that, is stored there; `PUSH R7`
stores the new SP. -/
def Obligations.PushDecrementsSpAndStores : Prop :=
  (∀ ra : Byte, encode (.push ra) = [0x45, ra]) ∧
  (∀ (s : State) (i : Fin 8), exec (.push (regByte i)) s =
    .next { s with
      regs := s.regs.set 7 (s.reg 7 - 1)
      mem := s.mem.set (s.reg 7 - 1).toNat (if i = 7 then s.reg 7 - 1 else s.reg i)
      pc := s.pc + 2 }) ∧
  (∀ (s : State) (ra : Byte), 8 ≤ ra.toNat →
    exec (.push ra) s = .next (s.raise (.addressOutOfRange .register ra.toNat) (some 0x45)))

/-- 42_data_output.md R131: POP: the byte at SP goes to the register, then SP goes up by one, modulo 256; `POP R7` leaves the
popped byte plus one. -/
def Obligations.PopLoadsAndIncrementsSp : Prop :=
  (∀ ra : Byte, encode (.pop ra) = [0x46, ra]) ∧
  (∀ (s : State) (i : Fin 8), i ≠ 7 → exec (.pop (regByte i)) s =
    .next { s with
      regs := (s.regs.set i (s.mem.get (s.reg 7).toNat)).set 7 (s.reg 7 + 1)
      pc := s.pc + 2 }) ∧
  (∀ s : State, exec (.pop (regByte 7)) s =
    .next { s with regs := s.regs.set 7 (s.mem.get (s.reg 7).toNat + 1), pc := s.pc + 2 }) ∧
  (∀ (s : State) (ra : Byte), 8 ≤ ra.toNat →
    exec (.pop ra) s = .next (s.raise (.addressOutOfRange .register ra.toNat) (some 0x46)))

/-- 43_control.md R140: HLT: `running` false, STATUS HALT with the address and opcode, pc one past it. -/
def Obligations.HltHaltsAndRecordsTheCause : Prop :=
  encode .hlt = [0x01] ∧
  (∀ s : State, exec .hlt s =
    .next { s with
      running := false
      status := { s.status with cause := .halt, addr := s.pc, opcode := some 0x01 }
      pc := s.pc + 1 }) ∧
  Cause.halt.code = 1

/-- 43_control.md R143: CALL: push the address after its two bytes and go to the register, read after the push, so `CALL R7` goes
to the new SP; a bad index first, then a return address of 256 or more, raises AddressOutOfRange. -/
def Obligations.CallPushesTheReturnAddressAndJumps : Prop :=
  (∀ ra : Byte, encode (.call ra) = [0x50, ra]) ∧
  (∀ (s : State) (i : Fin 8), s.pc.toNat + 2 < 256 → exec (.call (regByte i)) s =
    .next { s with
      regs := s.regs.set 7 (s.reg 7 - 1)
      mem := s.mem.set (s.reg 7 - 1).toNat (BitVec.ofNat 8 (s.pc.toNat + 2))
      pc := (if i = 7 then s.reg 7 - 1 else s.reg i).setWidth 9 }) ∧
  (∀ (s : State) (i : Fin 8), 256 ≤ s.pc.toNat + 2 → exec (.call (regByte i)) s =
    .next (s.raise (.addressOutOfRange .memory (s.pc.toNat + 2)) (some 0x50))) ∧
  (∀ (s : State) (ra : Byte), 8 ≤ ra.toNat →
    exec (.call ra) s = .next (s.raise (.addressOutOfRange .register ra.toNat) (some 0x50)))

/-- 43_control.md R146: RET: go to the byte at SP, and SP goes up by one, modulo 256. -/
def Obligations.RetPopsTheProgramCounter : Prop :=
  encode .ret = [0x11] ∧
  (∀ s : State, exec .ret s =
    .next { s with
      regs := s.regs.set 7 (s.reg 7 + 1)
      pc := (s.mem.get (s.reg 7).toNat).setWidth 9 })

/-! ### The EXTENDED ALU -/

/-- 41_alu.md R101, 44_ext_alu.md R160: the value of every operation. -/
def Obligations.AluOperationsHaveTheirValues : Prop :=
  (∀ (o : OpSet) (a b : Byte),
    alu o .add a b = .ok (.value (BitVec.ofNat 8 ((a.toNat + b.toNat) % 256))) ∧
    alu o .mul a b = .ok (.value (BitVec.ofNat 8 ((a.toNat * b.toNat) % 256)))) ∧
  (∀ a b : Byte,
    alu .extended .sub a b = .ok (.value (BitVec.ofNat 8 ((a.toNat + 256 - b.toNat) % 256))) ∧
    (b ≠ 0 → alu .extended .div a b = .ok (.value (BitVec.ofNat 8 (a.toNat / b.toNat)))) ∧
    (b ≠ 0 → alu .extended .mod a b = .ok (.value (BitVec.ofNat 8 (a.toNat % b.toNat)))) ∧
    alu .extended .inc a b = .ok (.value (BitVec.ofNat 8 ((a.toNat + 1) % 256))) ∧
    alu .extended .dec a b = .ok (.value (BitVec.ofNat 8 ((a.toNat + 255) % 256))) ∧
    alu .extended .and a b = .ok (.value (a &&& b)) ∧
    alu .extended .or a b = .ok (.value (a ||| b)) ∧
    alu .extended .xor a b = .ok (.value (a ^^^ b)) ∧
    alu .extended .not a b = .ok (.value (BitVec.ofNat 8 (255 - a.toNat))) ∧
    alu .extended .shl a b = .ok (.value (if 8 ≤ b.toNat then 0 else BitVec.ofNat 8 (a.toNat * 2 ^ b.toNat % 256))) ∧
    alu .extended .shr a b = .ok (.value (if 8 ≤ b.toNat then 0 else BitVec.ofNat 8 (a.toNat / 2 ^ b.toNat))) ∧
    alu .extended .cmp a b = .ok (.flags (cmpflags a b)))

/-- 44_ext_alu.md R170: the flag value, unsigned, and exactly one of L, G and E. -/
def Obligations.CmpflagsSetsExactlyOneFlag : Prop :=
  ∀ a b : Byte,
    (a.toNat < b.toNat → cmpflags a b = 0b100) ∧
    (a.toNat > b.toNat → cmpflags a b = 0b010) ∧
    (a.toNat = b.toNat → cmpflags a b = 0b001) ∧
    (cmpflags a b = 0b001 ∨ cmpflags a b = 0b010 ∨ cmpflags a b = 0b100)

/-- 44_ext_alu.md R162: SUB. -/
def Obligations.SubSubtractsModulo256 : Prop :=
  (∀ ra rb : Byte, encode (.sub ra rb) = [0xA1, ra, rb]) ∧
  (∀ (s : State) (i j : Fin 8), s.opset = .extended → exec (.sub (regByte i) (regByte j)) s =
    .next { s with regs := s.regs.set i (s.reg i - s.reg j), pc := s.pc + 3 }) ∧
  (∀ (s : State) (ra rb : Byte), 8 ≤ ra.toNat →
    exec (.sub ra rb) s = .next (s.raise (.addressOutOfRange .register ra.toNat) (some 0xA1))) ∧
  (∀ (s : State) (ra rb : Byte), ra.toNat < 8 → 8 ≤ rb.toNat →
    exec (.sub ra rb) s = .next (s.raise (.addressOutOfRange .register rb.toNat) (some 0xA1)))

/-- 44_ext_alu.md R164 and R165: DIV and MOD, unsigned; a zero divisor, after both index checks, raises DivideByZero. -/
def Obligations.DivAndModDivideUnsignedOrRaise : Prop :=
  (∀ ra rb : Byte, encode (.div ra rb) = [0xA3, ra, rb] ∧ encode (.mod ra rb) = [0xA4, ra, rb]) ∧
  (∀ (s : State) (i j : Fin 8), s.opset = .extended → s.reg j ≠ 0 →
    exec (.div (regByte i) (regByte j)) s =
      .next { s with regs := s.regs.set i (BitVec.ofNat 8 ((s.reg i).toNat / (s.reg j).toNat)), pc := s.pc + 3 } ∧
    exec (.mod (regByte i) (regByte j)) s =
      .next { s with regs := s.regs.set i (BitVec.ofNat 8 ((s.reg i).toNat % (s.reg j).toNat)), pc := s.pc + 3 }) ∧
  (∀ (s : State) (i j : Fin 8), s.opset = .extended → s.reg j = 0 →
    exec (.div (regByte i) (regByte j)) s = .next (s.raise .divideByZero (some 0xA3)) ∧
    exec (.mod (regByte i) (regByte j)) s = .next (s.raise .divideByZero (some 0xA4))) ∧
  (∀ (s : State) (ra rb : Byte), 8 ≤ ra.toNat →
    exec (.div ra rb) s = .next (s.raise (.addressOutOfRange .register ra.toNat) (some 0xA3)) ∧
    exec (.mod ra rb) s = .next (s.raise (.addressOutOfRange .register ra.toNat) (some 0xA4))) ∧
  (∀ (s : State) (ra rb : Byte), ra.toNat < 8 → 8 ≤ rb.toNat →
    exec (.div ra rb) s = .next (s.raise (.addressOutOfRange .register rb.toNat) (some 0xA3)) ∧
    exec (.mod ra rb) s = .next (s.raise (.addressOutOfRange .register rb.toNat) (some 0xA4)))

/-- 44_ext_alu.md R167 and R168: INC and DEC wrap modulo 256. -/
def Obligations.IncAndDecWrapModulo256 : Prop :=
  (∀ ra : Byte, encode (.inc ra) = [0x65, ra] ∧ encode (.dec ra) = [0x66, ra]) ∧
  (∀ (s : State) (i : Fin 8), s.opset = .extended →
    exec (.inc (regByte i)) s = .next { s with regs := s.regs.set i (s.reg i + 1), pc := s.pc + 2 } ∧
    exec (.dec (regByte i)) s = .next { s with regs := s.regs.set i (s.reg i - 1), pc := s.pc + 2 }) ∧
  (∀ (s : State) (ra : Byte), 8 ≤ ra.toNat →
    exec (.inc ra) s = .next (s.raise (.addressOutOfRange .register ra.toNat) (some 0x65)) ∧
    exec (.dec ra) s = .next (s.raise (.addressOutOfRange .register ra.toNat) (some 0x66)))

/-- 44_ext_alu.md R172: CMP writes FL in full and no register. -/
def Obligations.CmpWritesTheFlagsAndNoRegister : Prop :=
  (∀ ra rb : Byte, encode (.cmp ra rb) = [0xA7, ra, rb]) ∧
  (∀ (s : State) (i j : Fin 8), s.opset = .extended → exec (.cmp (regByte i) (regByte j)) s =
    .next { s with
      fl := if (s.reg i).toNat < (s.reg j).toNat then 0b100
            else if (s.reg j).toNat < (s.reg i).toNat then 0b010 else 0b001
      pc := s.pc + 3 }) ∧
  (∀ (s : State) (ra rb : Byte), 8 ≤ ra.toNat →
    exec (.cmp ra rb) s = .next (s.raise (.addressOutOfRange .register ra.toNat) (some 0xA7))) ∧
  (∀ (s : State) (ra rb : Byte), ra.toNat < 8 → 8 ≤ rb.toNat →
    exec (.cmp ra rb) s = .next (s.raise (.addressOutOfRange .register rb.toNat) (some 0xA7)))

/-- 44_ext_alu.md R173, R174, R175: AND, OR and XOR are bitwise. -/
def Obligations.AndOrXorAreBitwise : Prop :=
  (∀ ra rb : Byte, encode (.and ra rb) = [0xA8, ra, rb] ∧ encode (.or ra rb) = [0xAA, ra, rb] ∧
    encode (.xor ra rb) = [0xAB, ra, rb]) ∧
  (∀ (s : State) (i j : Fin 8), s.opset = .extended →
    exec (.and (regByte i) (regByte j)) s =
      .next { s with regs := s.regs.set i (s.reg i &&& s.reg j), pc := s.pc + 3 } ∧
    exec (.or (regByte i) (regByte j)) s =
      .next { s with regs := s.regs.set i (s.reg i ||| s.reg j), pc := s.pc + 3 } ∧
    exec (.xor (regByte i) (regByte j)) s =
      .next { s with regs := s.regs.set i (s.reg i ^^^ s.reg j), pc := s.pc + 3 }) ∧
  (∀ (s : State) (ra rb : Byte), 8 ≤ ra.toNat →
    exec (.and ra rb) s = .next (s.raise (.addressOutOfRange .register ra.toNat) (some 0xA8)) ∧
    exec (.or ra rb) s = .next (s.raise (.addressOutOfRange .register ra.toNat) (some 0xAA)) ∧
    exec (.xor ra rb) s = .next (s.raise (.addressOutOfRange .register ra.toNat) (some 0xAB))) ∧
  (∀ (s : State) (ra rb : Byte), ra.toNat < 8 → 8 ≤ rb.toNat →
    exec (.and ra rb) s = .next (s.raise (.addressOutOfRange .register rb.toNat) (some 0xA8)) ∧
    exec (.or ra rb) s = .next (s.raise (.addressOutOfRange .register rb.toNat) (some 0xAA)) ∧
    exec (.xor ra rb) s = .next (s.raise (.addressOutOfRange .register rb.toNat) (some 0xAB)))

/-- 44_ext_alu.md R176: NOT flips every one of the 8 bits. -/
def Obligations.NotFlipsEveryBit : Prop :=
  (∀ ra : Byte, encode (.not ra) = [0x69, ra]) ∧
  (∀ (s : State) (i : Fin 8), s.opset = .extended → exec (.not (regByte i)) s =
    .next { s with regs := s.regs.set i (~~~(s.reg i)), pc := s.pc + 2 }) ∧
  (∀ (s : State) (ra : Byte), 8 ≤ ra.toNat →
    exec (.not ra) s = .next (s.raise (.addressOutOfRange .register ra.toNat) (some 0x69)))

/-- 44_ext_alu.md R177, R178, R179: SHL and SHR shift by the whole byte, filling with 0; 8 or more gives 0. -/
def Obligations.ShiftsUseTheWholeAmount : Prop :=
  (∀ ra rb : Byte, encode (.shl ra rb) = [0xAC, ra, rb] ∧ encode (.shr ra rb) = [0xAD, ra, rb]) ∧
  (∀ (s : State) (i j : Fin 8), s.opset = .extended →
    exec (.shl (regByte i) (regByte j)) s =
      .next { s with
        regs := s.regs.set i (if 8 ≤ (s.reg j).toNat then 0 else s.reg i <<< (s.reg j).toNat)
        pc := s.pc + 3 } ∧
    exec (.shr (regByte i) (regByte j)) s =
      .next { s with
        regs := s.regs.set i (if 8 ≤ (s.reg j).toNat then 0 else s.reg i >>> (s.reg j).toNat)
        pc := s.pc + 3 }) ∧
  (∀ (s : State) (ra rb : Byte), 8 ≤ ra.toNat →
    exec (.shl ra rb) s = .next (s.raise (.addressOutOfRange .register ra.toNat) (some 0xAC)) ∧
    exec (.shr ra rb) s = .next (s.raise (.addressOutOfRange .register ra.toNat) (some 0xAD))) ∧
  (∀ (s : State) (ra rb : Byte), ra.toNat < 8 → 8 ≤ rb.toNat →
    exec (.shl ra rb) s = .next (s.raise (.addressOutOfRange .register rb.toNat) (some 0xAC)) ∧
    exec (.shr ra rb) s = .next (s.raise (.addressOutOfRange .register rb.toNat) (some 0xAD)))

/-- An EXTENDED ALU instruction given to `exec` in BASE, its register operands all good, raises UnsupportedOperation: the form
the other statements about it leave aside. No step of BASE comes to it, because the lookup is the profile's (41_alu.md R102;
the reading of the gate is the model's, log entry 7). -/
def Obligations.ExtendedAluInstructionsInBaseRaiseUnsupportedOperation : Prop :=
  ∀ (s : State) (i : Instr), s.opset = .base → i.wellFormed = true →
    i.kind ∈ [Kind.inc, .dec, .not, .sub, .div, .mod, .cmp, .and, .or, .xor, .shl, .shr] →
    exec i s = .next (s.raise .unsupportedOperation (some i.kind.opcode)) ∧
    step s ≠ .next (s.raise .unsupportedOperation (some i.kind.opcode))

/-! ### The EXTENDED jumps and memory instructions -/

/-- 45_ext_control_memory.md R190: JMP. -/
def Obligations.JmpGoesToTheRegister : Prop :=
  (∀ ra : Byte, encode (.jmp ra) = [0x54, ra]) ∧
  (∀ (s : State) (i : Fin 8), exec (.jmp (regByte i)) s = .next { s with pc := (s.reg i).setWidth 9 }) ∧
  (∀ (s : State) (ra : Byte), 8 ≤ ra.toNat →
    exec (.jmp ra) s = .next (s.raise (.addressOutOfRange .register ra.toNat) (some 0x54)))

/-- 45_ext_control_memory.md R191 to R197: the conditional jumps: L is bit 2, G bit 1, E bit 0; the index is checked taken or not;
not taken, pc goes past the two bytes. -/
def Obligations.ConditionalJumpsFollowTheirFlags : Prop :=
  (∀ ra : Byte, encode (.jeq ra) = [0x55, ra] ∧ encode (.jne ra) = [0x56, ra] ∧ encode (.jgt ra) = [0x57, ra] ∧
    encode (.jlt ra) = [0x58, ra] ∧ encode (.jle ra) = [0x59, ra] ∧ encode (.jge ra) = [0x5A, ra]) ∧
  (∀ (s : State) (i : Fin 8),
    exec (.jeq (regByte i)) s =
      .next { s with pc := if s.fl.getLsbD 0 = true then (s.reg i).setWidth 9 else s.pc + 2 } ∧
    exec (.jne (regByte i)) s =
      .next { s with pc := if s.fl.getLsbD 0 = false then (s.reg i).setWidth 9 else s.pc + 2 } ∧
    exec (.jgt (regByte i)) s =
      .next { s with pc := if s.fl.getLsbD 1 = true then (s.reg i).setWidth 9 else s.pc + 2 } ∧
    exec (.jlt (regByte i)) s =
      .next { s with pc := if s.fl.getLsbD 2 = true then (s.reg i).setWidth 9 else s.pc + 2 } ∧
    exec (.jle (regByte i)) s =
      .next { s with
        pc := if s.fl.getLsbD 2 = true ∨ s.fl.getLsbD 0 = true then (s.reg i).setWidth 9 else s.pc + 2 } ∧
    exec (.jge (regByte i)) s =
      .next { s with
        pc := if s.fl.getLsbD 1 = true ∨ s.fl.getLsbD 0 = true then (s.reg i).setWidth 9 else s.pc + 2 }) ∧
  (∀ (s : State) (ra : Byte), 8 ≤ ra.toNat →
    exec (.jeq ra) s = .next (s.raise (.addressOutOfRange .register ra.toNat) (some 0x55)) ∧
    exec (.jne ra) s = .next (s.raise (.addressOutOfRange .register ra.toNat) (some 0x56)) ∧
    exec (.jgt ra) s = .next (s.raise (.addressOutOfRange .register ra.toNat) (some 0x57)) ∧
    exec (.jlt ra) s = .next (s.raise (.addressOutOfRange .register ra.toNat) (some 0x58)) ∧
    exec (.jle ra) s = .next (s.raise (.addressOutOfRange .register ra.toNat) (some 0x59)) ∧
    exec (.jge ra) s = .next (s.raise (.addressOutOfRange .register ra.toNat) (some 0x5A)))

/-- 45_ext_control_memory.md R200: LD. -/
def Obligations.LdLoadsTheByteTheRegisterPointsAt : Prop :=
  (∀ ra rb : Byte, encode (.ld ra rb) = [0x83, ra, rb]) ∧
  (∀ (s : State) (i j : Fin 8), exec (.ld (regByte i) (regByte j)) s =
    .next { s with regs := s.regs.set i (s.mem.get (s.reg j).toNat), pc := s.pc + 3 }) ∧
  (∀ (s : State) (ra rb : Byte), 8 ≤ ra.toNat →
    exec (.ld ra rb) s = .next (s.raise (.addressOutOfRange .register ra.toNat) (some 0x83))) ∧
  (∀ (s : State) (ra rb : Byte), ra.toNat < 8 → 8 ≤ rb.toNat →
    exec (.ld ra rb) s = .next (s.raise (.addressOutOfRange .register rb.toNat) (some 0x83)))

/-- 45_ext_control_memory.md R201: ST, the address register first. -/
def Obligations.StStoresToTheAddressInTheFirstRegister : Prop :=
  (∀ ra rb : Byte, encode (.st ra rb) = [0x84, ra, rb]) ∧
  (∀ (s : State) (i j : Fin 8), exec (.st (regByte i) (regByte j)) s =
    .next { s with mem := s.mem.set (s.reg i).toNat (s.reg j), pc := s.pc + 3 }) ∧
  (∀ (s : State) (ra rb : Byte), 8 ≤ ra.toNat →
    exec (.st ra rb) s = .next (s.raise (.addressOutOfRange .register ra.toNat) (some 0x84))) ∧
  (∀ (s : State) (ra rb : Byte), ra.toNat < 8 → 8 ≤ rb.toNat →
    exec (.st ra rb) s = .next (s.raise (.addressOutOfRange .register rb.toNat) (some 0x84)))

/-! ### Memory -/

/-- 20_memory.md R41: both operations check the bound; a read changes nothing, a write changes the one byte. The premise is the
canonical form, which every step keeps. -/
def Obligations.MemoryAccessesCheckTheBoundAndTouchOneByte : Prop :=
  (∀ (s : State) (a : Nat) (v : Byte), 256 ≤ a →
    memRead s a = .error (.addressOutOfRange .memory a) ∧ memWrite s a v = .error (.addressOutOfRange .memory a)) ∧
  (∀ (s : State) (a : Nat), a < 256 → memRead s a = .ok (s.mem.get a)) ∧
  (∀ (s : State) (a : Nat) (v : Byte), s.mem.wf = true → a < 256 →
    ∃ m : Memory, memWrite s a v = .ok { s with mem := m } ∧ m.wf = true ∧
      ∀ b, m.get b = if b = a then v else s.mem.get b)

/-- Two memories in canonical form that read alike at every address are the same data (log entry 2 names what an unlisted
address reads as). -/
def Obligations.EqualContentsAreEqualMemories : Prop :=
  ∀ m n : Memory, m.wf = true → n.wf = true → (∀ a, a < 256 → m.get a = n.get a) → m = n

/-! ### Sequences -/

/-- PUSH and then POP of the same register, R7 as well, leaves every register as it was; the pushed byte stays in memory
(42_data_output.md, section 3). -/
def Obligations.PushThenPopRestoresTheRegisters : Prop :=
  ∀ (s t u : State) (i : Fin 8), s.mem.wf = true → exec (.push (regByte i)) s = .next t →
    exec (.pop (regByte i)) t = .next u →
    u.regs = s.regs ∧ u.mem = t.mem ∧ u.mem.get (s.reg 7 - 1).toNat = if i = 7 then s.reg 7 - 1 else s.reg i

/-- A CALL whose subroutine leaves SP and the stacked byte as it found them, and then RET, resumes after the CALL with SP as it
was (43_control.md, section 2). -/
def Obligations.CallThenRetResumesAfterTheCall : Prop :=
  ∀ (s t u v : State) (i : Fin 8), s.mem.wf = true → s.pc.toNat + 2 < 256 →
    exec (.call (regByte i)) s = .next t →
    u.reg 7 = t.reg 7 → u.mem.get (t.reg 7).toNat = t.mem.get (t.reg 7).toNat →
    exec .ret u = .next v →
    v.pc.toNat = s.pc.toNat + 2 ∧ v.reg 7 = s.reg 7

/-- LDI of a register and then PRN of it appends the immediate exactly once (42_data_output.md, section 1). -/
def Obligations.LdiThenPrnEmitsTheImmediate : Prop :=
  ∀ (s t u : State) (i : Fin 8) (v : Byte), exec (.ldi (regByte i) v) s = .next t →
    exec (.prn (regByte i)) t = .next u → u.out = s.out ++ [v]

/-- A store is seen by the very next fetch (20_memory.md, section 4): an ST that writes HLT's opcode over the instruction after
it halts the core on the next step, at that address. -/
def Obligations.AStoreIsSeenByTheNextFetch : Prop :=
  ∀ (s : State) (i j : Fin 8), s.running = true → s.opset = .extended → s.mem.wf = true → s.pc.toNat + 3 < 256 →
    s.mem.get s.pc.toNat = 0x84 → s.mem.get (s.pc.toNat + 1) = regByte i → s.mem.get (s.pc.toNat + 2) = regByte j →
    (s.reg i).toNat = s.pc.toNat + 3 → s.reg j = 0x01 →
    ∃ t u, step s = .next t ∧ t.running = true ∧ step t = .next u ∧ u.running = false ∧ u.status.cause = .halt ∧
      u.status.addr.toNat = s.pc.toNat + 3

/-! ### Frames -/

/-- The frame of the instructions whose only result is a register, named by the first operand: every other register, FL, OUT,
the profile and every byte of memory are unchanged; `running` and STATUS too, unless a condition was raised. -/
def Obligations.RegisterResultFrame : Prop :=
  ∀ (ra rb : Byte) (i : Instr),
    i ∈ [Instr.ldi ra rb, .add ra rb, .mul ra rb, .sub ra rb, .div ra rb, .mod ra rb, .and ra rb, .or ra rb, .xor ra rb,
      .shl ra rb, .shr ra rb, .ld ra rb, .inc ra, .dec ra, .not ra] →
    ∀ s t : State, exec i s = .next t →
      (∀ j : Fin 8, j.val ≠ ra.toNat → t.reg j = s.reg j) ∧ t.fl = s.fl ∧ t.out = s.out ∧ t.opset = s.opset ∧
      (∀ a, t.mem.get a = s.mem.get a) ∧
      ((t.running = s.running ∧ t.status = s.status) ∨ ∃ c, t = s.raise c (some i.kind.opcode))

/-- The frame of the instructions that store on the stack, PUSH and CALL: every register but SP, FL, OUT and the profile are
unchanged, and every byte of memory but the one at `pushAddr`. -/
def Obligations.StackStoreFrame : Prop :=
  ∀ (ra : Byte) (i : Instr), i ∈ [Instr.push ra, .call ra] →
    ∀ s t : State, exec i s = .next t →
      (∀ j : Fin 8, j ≠ 7 → t.reg j = s.reg j) ∧ t.fl = s.fl ∧ t.out = s.out ∧ t.opset = s.opset ∧
      (∀ a, a = s.pushAddr.toNat → ∀ b, b ≠ a → t.mem.get b = s.mem.get b) ∧
      ((t.running = s.running ∧ t.status = s.status) ∨ ∃ c, t = s.raise c (some i.kind.opcode))

/-- The frame of the instructions that read the stack, POP and RET: every register but SP and POP's destination, FL, OUT, the
profile and every byte of memory are unchanged. -/
def Obligations.StackLoadFrame : Prop :=
  ∀ (ra : Byte) (i : Instr), i ∈ [Instr.pop ra, .ret] →
    ∀ s t : State, exec i s = .next t →
      (∀ j : Fin 8, j ≠ 7 → (i = .pop ra → j.val ≠ ra.toNat) → t.reg j = s.reg j) ∧
      t.fl = s.fl ∧ t.out = s.out ∧ t.opset = s.opset ∧ (∀ a, t.mem.get a = s.mem.get a) ∧
      ((t.running = s.running ∧ t.status = s.status) ∨ ∃ c, t = s.raise c (some i.kind.opcode))

/-- The frame of ST: every register, FL, OUT and the profile are unchanged, and every byte of memory but the one at the address
its first register holds; a form that raises stores nothing. -/
def Obligations.StoreFrame : Prop :=
  ∀ (ra rb : Byte) (s t : State), exec (.st ra rb) s = .next t →
    t.regs = s.regs ∧ t.fl = s.fl ∧ t.out = s.out ∧ t.opset = s.opset ∧
    (∀ i : Fin 8, i.val = ra.toNat → ∀ a, a = s.addrIn i → ∀ b, b ≠ a → t.mem.get b = s.mem.get b) ∧
    (8 ≤ ra.toNat → ∀ b, t.mem.get b = s.mem.get b) ∧
    ((t.running = s.running ∧ t.status = s.status) ∨ ∃ c, t = s.raise c (some 0x84))

/-- The frame of the instructions that write no register and store nothing: HLT, PRN, CMP and the jumps. Only CMP writes FL, only
PRN writes OUT, only HLT writes `running` and STATUS other than by a condition. -/
def Obligations.NoRegisterNoStoreFrame : Prop :=
  ∀ (ra rb : Byte) (i : Instr),
    i ∈ [Instr.hlt, .prn ra, .cmp ra rb, .jmp ra, .jeq ra, .jne ra, .jgt ra, .jlt ra, .jle ra, .jge ra] →
    ∀ s t : State, exec i s = .next t →
      t.regs = s.regs ∧ t.opset = s.opset ∧ (∀ a, t.mem.get a = s.mem.get a) ∧
      (i ≠ .cmp ra rb → t.fl = s.fl) ∧ (i ≠ .prn ra → t.out = s.out) ∧
      (i ≠ .hlt → (t.running = s.running ∧ t.status = s.status) ∨ ∃ c, t = s.raise c (some i.kind.opcode))
end

