-- ==== Sys2Proof/Laws/Decode.lean ====
section
/-! SUPPORT. The laws of the opcode table: opcodes are distinct, the handler map gives exactly the table's rows, and an
instruction is rebuilt from its kind and operand bytes. -/

namespace Sys2Proof

theorem Kind.mem_all (k : Kind) : k ∈ Kind.all := by
  cases k <;> decide

/-- No two kinds share an opcode. -/
theorem Kind.opcode_injective {j k : Kind} (h : j.opcode = k.opcode) : j = k := by
  have all : ∀ a ∈ Kind.all, ∀ b ∈ Kind.all, a.opcode = b.opcode → a = b := by decide
  exact all j j.mem_all k k.mem_all h

/-- The handler map gives a kind exactly for that kind's opcode, in a profile that has it (30_encoding.md R70). -/
theorem lookup_eq_some {o : OpSet} {op : Byte} {k : Kind} :
    lookup o op = some k ↔ k.opcode = op ∧ k.inProfile o = true := by
  constructor
  · intro h
    simpa using List.find?_some h
  · rintro ⟨rfl, hp⟩
    have hs : (lookup o k.opcode).isSome := by
      rw [lookup, List.find?_isSome]
      exact ⟨k, k.mem_all, by simp [hp]⟩
    obtain ⟨j, hj⟩ := Option.isSome_iff_exists.1 hs
    have hop : j.opcode = k.opcode := by
      have := List.find?_some hj
      simp only [Bool.and_eq_true, beq_iff_eq] at this
      exact this.1
    rw [hj, Kind.opcode_injective hop]

theorem lookup_opcode {o : OpSet} {k : Kind} (h : k.inProfile o = true) : lookup o k.opcode = some k :=
  lookup_eq_some.2 ⟨rfl, h⟩

/-- The count field of each opcode is its format's operand count (30_encoding.md R71). -/
theorem operandCount_opcode (k : Kind) : operandCount k.opcode = k.format.operandCount := by
  cases k <;> decide

/-- The dispatcher never reads more than two operand bytes (30_encoding.md R69). -/
theorem operandCount_le (op : Byte) : operandCount op ≤ 2 := by
  have h : bitField op 7 6 < 4 := Nat.mod_lt _ (by decide)
  simp only [operandCount]
  split <;> omega

@[simp] theorem Instr.operands_length (i : Instr) : i.operands.length = i.kind.format.operandCount := by
  cases i <;> rfl

@[simp] theorem Kind.kind_build (k : Kind) (ra rb : Byte) : (k.build ra rb).kind = k := by
  cases k <;> rfl

/-- The operand bytes of a built instruction are as many of the given ones as its format has. -/
theorem Kind.operands_build (k : Kind) (ra rb : Byte) :
    (k.build ra rb).operands = [ra, rb].take k.format.operandCount := by
  cases k <;> rfl

/-- An instruction is rebuilt from its kind and operand bytes, whatever follows them. -/
theorem Instr.build_operands (i : Instr) (rest : List Byte) :
    i.kind.build ((i.operands ++ rest).getD 0 0) ((i.operands ++ rest).getD 1 0) = i := by
  cases i <;> rfl

theorem encode_length (i : Instr) : (encode i).length = 1 + operandCount i.kind.opcode := by
  simp [encode, operandCount_opcode, Nat.add_comm]

end Sys2Proof
end

