-- ==== Sys2Proof/Laws/Memory.lean ====
section
/-! SUPPORT. The laws of the memory operations: the canonical form is kept, a read gives the last write, every other address
reads as before, and equal contents are equal data. -/

namespace Sys2Proof.Machine.Memory

/-- The canonical form from `lo` on, one entry at a time. -/
theorem wfFrom_cons (lo a : Nat) (v : Byte) (m : Memory) :
    wfFrom lo ((a, v) :: m) = true ↔ lo ≤ a ∧ a < 256 ∧ v ≠ unlisted ∧ wfFrom (a + 1) m = true := by
  simp [wfFrom, Config.memSize, and_assoc]

theorem wfFrom_mono {lo hi : Nat} {m : Memory} (hle : lo ≤ hi) (h : wfFrom hi m = true) : wfFrom lo m = true := by
  cases m with
  | nil => rfl
  | cons e m =>
    obtain ⟨h1, h2⟩ := (wfFrom_cons _ _ _ _).1 h
    exact (wfFrom_cons _ _ _ _).2 ⟨by omega, h2⟩

/-- Below the first listed address every byte is unlisted. -/
theorem get_below {lo a : Nat} {m : Memory} (h : wfFrom lo m = true) (ha : a < lo) : get m a = unlisted := by
  induction m generalizing lo with
  | nil => rfl
  | cons e m ih =>
    obtain ⟨h1, _, _, h4⟩ := (wfFrom_cons _ _ _ _).1 h
    have hne : ¬ e.1 = a := by omega
    simpa [get, hne] using ih h4 (by omega)

theorem get_set_ne (m : Memory) {a b : Nat} (v : Byte) (h : b ≠ a) : get (set m a v) b = get m b := by
  induction m with
  | nil => by_cases hv : v = unlisted <;> simp [set, get, hv, h.symm]
  | cons e m ih =>
    obtain ⟨k, w⟩ := e
    by_cases hlt : a < k
    · by_cases hv : v = unlisted <;> simp [set, get, hlt, hv, h.symm]
    · by_cases hk : a = k
      · subst hk
        by_cases hv : v = unlisted <;> simp [set, get, hv, h.symm]
      · simp [set, get, hlt, hk, ih]

theorem get_set_same_from {lo a : Nat} {m : Memory} (v : Byte) (h : wfFrom lo m = true) :
    get (set m a v) a = v := by
  induction m generalizing lo with
  | nil => by_cases hv : v = unlisted <;> simp [set, get, hv]
  | cons e m ih =>
    obtain ⟨k, w⟩ := e
    obtain ⟨h1, _, _, h4⟩ := (wfFrom_cons _ _ _ _).1 h
    by_cases hlt : a < k
    · by_cases hv : v = unlisted
      · have hne : ¬ k = a := by omega
        simpa [set, get, hlt, hv, hne] using get_below h4 (by omega)
      · simp [set, get, hlt, hv]
    · by_cases hk : a = k
      · subst hk
        by_cases hv : v = unlisted
        · simpa [set, get, hv] using get_below h4 (by omega)
        · simp [set, get, hv]
      · have hne : ¬ k = a := fun e => hk e.symm
        simpa [set, get, hlt, hk, hne] using ih h4

theorem get_set_same {m : Memory} (a : Nat) (v : Byte) (h : m.wf = true) : get (set m a v) a = v :=
  get_set_same_from v h

theorem get_set {m : Memory} (a b : Nat) (v : Byte) (h : m.wf = true) :
    get (set m a v) b = if b = a then v else get m b := by
  split
  · next e => rw [e, get_set_same a v h]
  · next e => exact get_set_ne m v e

theorem wfFrom_set {lo a : Nat} {m : Memory} (v : Byte) (hlo : lo ≤ a) (ha : a < 256) (h : wfFrom lo m = true) :
    wfFrom lo (set m a v) = true := by
  induction m generalizing lo with
  | nil =>
    by_cases hv : v = unlisted
    · simp [set, hv, wfFrom]
    · simp [set, hv, wfFrom, hlo, ha, Config.memSize]
  | cons e m ih =>
    obtain ⟨k, w⟩ := e
    obtain ⟨h1, h2, h3, h4⟩ := (wfFrom_cons _ _ _ _).1 h
    by_cases hlt : a < k
    · by_cases hv : v = unlisted
      · simpa [set, hlt, hv] using h
      · simpa [set, hlt, hv] using
          (wfFrom_cons _ _ _ _).2 ⟨hlo, ha, hv, (wfFrom_cons _ _ _ _).2 ⟨hlt, h2, h3, h4⟩⟩
    · by_cases hk : a = k
      · subst hk
        by_cases hv : v = unlisted
        · simpa [set, hv] using wfFrom_mono (by omega) h4
        · simpa [set, hv] using (wfFrom_cons _ _ _ _).2 ⟨h1, ha, hv, h4⟩
      · simpa [set, hlt, hk] using (wfFrom_cons _ _ _ _).2 ⟨h1, h2, h3, ih (by omega) h4⟩

/-- A write inside the address space keeps the canonical form. -/
theorem wf_set {m : Memory} {a : Nat} (v : Byte) (ha : a < 256) (h : m.wf = true) : (set m a v).wf = true :=
  wfFrom_set v (Nat.zero_le a) ha h

@[simp] theorem wf_nil : wf [] = true := rfl

theorem get_ofBytes_below {a b : Nat} (bs : List Byte) (h : b < a) : get (ofBytes a bs) b = unlisted := by
  induction bs generalizing a with
  | nil => rfl
  | cons v bs ih =>
    have hne : ¬ a = b := by omega
    by_cases hv : v = unlisted
    · simpa [ofBytes, hv] using ih (by omega)
    · simpa [ofBytes, hv, get, hne] using ih (a := a + 1) (by omega)

/-- The memory made of bytes reads as those bytes. -/
theorem get_ofBytes (a n : Nat) (bs : List Byte) : get (ofBytes a bs) (a + n) = bs.getD n unlisted := by
  induction bs generalizing a n with
  | nil => simp [ofBytes, get]
  | cons v bs ih =>
    cases n with
    | zero =>
      by_cases hv : v = unlisted
      · simpa [ofBytes, hv] using get_ofBytes_below bs (Nat.lt_succ_self a)
      · simp [ofBytes, hv, get]
    | succ n =>
      have e : a + (n + 1) = a + 1 + n := by omega
      have hne : ¬ a = a + 1 + n := by omega
      rw [e]
      by_cases hv : v = unlisted <;> simpa [ofBytes, hv, get, hne] using ih (a + 1) n

/-- The memory made of bytes is in canonical form when it fits the address space. -/
theorem wfFrom_ofBytes (a : Nat) (bs : List Byte) (h : a + bs.length ≤ 256) : wfFrom a (ofBytes a bs) = true := by
  induction bs generalizing a with
  | nil => rfl
  | cons v bs ih =>
    simp only [List.length_cons] at h
    have h1 := ih (a + 1) (by omega)
    by_cases hv : v = unlisted
    · simpa [ofBytes, hv] using wfFrom_mono (Nat.le_succ a) h1
    · simpa [ofBytes, hv] using (wfFrom_cons _ _ _ _).2 ⟨Nat.le_refl a, by omega, hv, h1⟩

end Sys2Proof.Machine.Memory
end

