-- ==== Sys2Proof/Laws/State.lean ====
section
/-! SUPPORT. What each update of the state does to each field: one lemma per field per update, so that no later proof unfolds a
record update. -/

namespace Sys2Proof.Machine

variable (s : State)

/-! ### `State.setReg` -/

@[simp] theorem State.setReg_opset (i : Fin 8) (v : Byte) : (s.setReg i v).opset = s.opset := rfl
@[simp] theorem State.setReg_regs (i : Fin 8) (v : Byte) : (s.setReg i v).regs = s.regs.set i v := rfl
@[simp] theorem State.setReg_pc (i : Fin 8) (v : Byte) : (s.setReg i v).pc = s.pc := rfl
@[simp] theorem State.setReg_running (i : Fin 8) (v : Byte) : (s.setReg i v).running = s.running := rfl
@[simp] theorem State.setReg_status (i : Fin 8) (v : Byte) : (s.setReg i v).status = s.status := rfl
@[simp] theorem State.setReg_mem (i : Fin 8) (v : Byte) : (s.setReg i v).mem = s.mem := rfl
@[simp] theorem State.setReg_out (i : Fin 8) (v : Byte) : (s.setReg i v).out = s.out := rfl
@[simp] theorem State.setReg_fl (i : Fin 8) (v : Byte) : (s.setReg i v).fl = s.fl := rfl

/-! ### `State.setSp` -/

@[simp] theorem State.setSp_opset (v : Byte) : (s.setSp v).opset = s.opset := rfl
@[simp] theorem State.setSp_regs (v : Byte) : (s.setSp v).regs = s.regs.set Config.spReg v := rfl
@[simp] theorem State.setSp_pc (v : Byte) : (s.setSp v).pc = s.pc := rfl
@[simp] theorem State.setSp_running (v : Byte) : (s.setSp v).running = s.running := rfl
@[simp] theorem State.setSp_status (v : Byte) : (s.setSp v).status = s.status := rfl
@[simp] theorem State.setSp_mem (v : Byte) : (s.setSp v).mem = s.mem := rfl
@[simp] theorem State.setSp_out (v : Byte) : (s.setSp v).out = s.out := rfl
@[simp] theorem State.setSp_fl (v : Byte) : (s.setSp v).fl = s.fl := rfl

/-! ### `State.decSp` -/

@[simp] theorem State.decSp_opset : (s.decSp).opset = s.opset := rfl
@[simp] theorem State.decSp_regs : (s.decSp).regs = s.regs.set Config.spReg s.pushAddr := rfl
@[simp] theorem State.decSp_pc : (s.decSp).pc = s.pc := rfl
@[simp] theorem State.decSp_running : (s.decSp).running = s.running := rfl
@[simp] theorem State.decSp_status : (s.decSp).status = s.status := rfl
@[simp] theorem State.decSp_mem : (s.decSp).mem = s.mem := rfl
@[simp] theorem State.decSp_out : (s.decSp).out = s.out := rfl
@[simp] theorem State.decSp_fl : (s.decSp).fl = s.fl := rfl

/-! ### `State.incSp` -/

@[simp] theorem State.incSp_opset : (s.incSp).opset = s.opset := rfl
@[simp] theorem State.incSp_regs : (s.incSp).regs = s.regs.set Config.spReg (trunc8 ((s.sp.toNat : Int) + 1)) := rfl
@[simp] theorem State.incSp_pc : (s.incSp).pc = s.pc := rfl
@[simp] theorem State.incSp_running : (s.incSp).running = s.running := rfl
@[simp] theorem State.incSp_status : (s.incSp).status = s.status := rfl
@[simp] theorem State.incSp_mem : (s.incSp).mem = s.mem := rfl
@[simp] theorem State.incSp_out : (s.incSp).out = s.out := rfl
@[simp] theorem State.incSp_fl : (s.incSp).fl = s.fl := rfl

/-! ### `State.emit` -/

@[simp] theorem State.emit_opset (v : Byte) : (s.emit v).opset = s.opset := rfl
@[simp] theorem State.emit_regs (v : Byte) : (s.emit v).regs = s.regs := rfl
@[simp] theorem State.emit_pc (v : Byte) : (s.emit v).pc = s.pc := rfl
@[simp] theorem State.emit_running (v : Byte) : (s.emit v).running = s.running := rfl
@[simp] theorem State.emit_status (v : Byte) : (s.emit v).status = s.status := rfl
@[simp] theorem State.emit_mem (v : Byte) : (s.emit v).mem = s.mem := rfl
@[simp] theorem State.emit_out (v : Byte) : (s.emit v).out = s.out ++ [v] := rfl
@[simp] theorem State.emit_fl (v : Byte) : (s.emit v).fl = s.fl := rfl

/-! ### `State.jump` -/

@[simp] theorem State.jump_opset (t : Byte) : (s.jump t).opset = s.opset := rfl
@[simp] theorem State.jump_regs (t : Byte) : (s.jump t).regs = s.regs := rfl
@[simp] theorem State.jump_pc (t : Byte) : (s.jump t).pc = t.setWidth 9 := rfl
@[simp] theorem State.jump_running (t : Byte) : (s.jump t).running = s.running := rfl
@[simp] theorem State.jump_status (t : Byte) : (s.jump t).status = s.status := rfl
@[simp] theorem State.jump_mem (t : Byte) : (s.jump t).mem = s.mem := rfl
@[simp] theorem State.jump_out (t : Byte) : (s.jump t).out = s.out := rfl
@[simp] theorem State.jump_fl (t : Byte) : (s.jump t).fl = s.fl := rfl

/-! ### `State.advance` -/

@[simp] theorem State.advance_opset (n : Nat) : (s.advance n).opset = s.opset := rfl
@[simp] theorem State.advance_regs (n : Nat) : (s.advance n).regs = s.regs := rfl
@[simp] theorem State.advance_pc (n : Nat) : (s.advance n).pc = BitVec.ofNat 9 (s.pc.toNat + 1 + n) := rfl
@[simp] theorem State.advance_running (n : Nat) : (s.advance n).running = s.running := rfl
@[simp] theorem State.advance_status (n : Nat) : (s.advance n).status = s.status := rfl
@[simp] theorem State.advance_mem (n : Nat) : (s.advance n).mem = s.mem := rfl
@[simp] theorem State.advance_out (n : Nat) : (s.advance n).out = s.out := rfl
@[simp] theorem State.advance_fl (n : Nat) : (s.advance n).fl = s.fl := rfl

/-! ### `State.setFl` -/

@[simp] theorem State.setFl_opset (v : Byte) : (s.setFl v).opset = s.opset := rfl
@[simp] theorem State.setFl_regs (v : Byte) : (s.setFl v).regs = s.regs := rfl
@[simp] theorem State.setFl_pc (v : Byte) : (s.setFl v).pc = s.pc := rfl
@[simp] theorem State.setFl_running (v : Byte) : (s.setFl v).running = s.running := rfl
@[simp] theorem State.setFl_status (v : Byte) : (s.setFl v).status = s.status := rfl
@[simp] theorem State.setFl_mem (v : Byte) : (s.setFl v).mem = s.mem := rfl
@[simp] theorem State.setFl_out (v : Byte) : (s.setFl v).out = s.out := rfl
@[simp] theorem State.setFl_fl (v : Byte) : (s.setFl v).fl = v := rfl

/-! ### `State.halt` -/

@[simp] theorem State.halt_opset (op : Byte) : (s.halt op).opset = s.opset := rfl
@[simp] theorem State.halt_regs (op : Byte) : (s.halt op).regs = s.regs := rfl
@[simp] theorem State.halt_pc (op : Byte) : (s.halt op).pc = s.pc := rfl
@[simp] theorem State.halt_running (op : Byte) : (s.halt op).running = false := rfl
@[simp] theorem State.halt_status (op : Byte) : (s.halt op).status = { s.status with cause := .halt, addr := s.pc, opcode := some op } := rfl
@[simp] theorem State.halt_mem (op : Byte) : (s.halt op).mem = s.mem := rfl
@[simp] theorem State.halt_out (op : Byte) : (s.halt op).out = s.out := rfl
@[simp] theorem State.halt_fl (op : Byte) : (s.halt op).fl = s.fl := rfl

/-! ### `State.raise` -/

@[simp] theorem State.raise_opset (c : Condition) (op : Option Byte) : (s.raise c op).opset = s.opset := rfl
@[simp] theorem State.raise_regs (c : Condition) (op : Option Byte) : (s.raise c op).regs = s.regs := rfl
@[simp] theorem State.raise_pc (c : Condition) (op : Option Byte) : (s.raise c op).pc = s.pc := rfl
@[simp] theorem State.raise_running (c : Condition) (op : Option Byte) : (s.raise c op).running = false := rfl
@[simp] theorem State.raise_status (c : Condition) (op : Option Byte) : (s.raise c op).status = c.record s.pc op s.status := rfl
@[simp] theorem State.raise_mem (c : Condition) (op : Option Byte) : (s.raise c op).mem = s.mem := rfl
@[simp] theorem State.raise_out (c : Condition) (op : Option Byte) : (s.raise c op).out = s.out := rfl
@[simp] theorem State.raise_fl (c : Condition) (op : Option Byte) : (s.raise c op).fl = s.fl := rfl

/-! ### `State.writeAlu` -/

@[simp] theorem State.writeAlu_value (i : Fin 8) (v : Byte) : s.writeAlu i (.value v) = s.setReg i v := rfl
@[simp] theorem State.writeAlu_flags (i : Fin 8) (fl : Byte) : s.writeAlu i (.flags fl) = s.setFl fl := rfl
@[simp] theorem State.writeAlu_opset (i : Fin 8) (r : AluOut) : (s.writeAlu i r).opset = s.opset := by cases r <;> rfl
@[simp] theorem State.writeAlu_pc (i : Fin 8) (r : AluOut) : (s.writeAlu i r).pc = s.pc := by cases r <;> rfl
@[simp] theorem State.writeAlu_running (i : Fin 8) (r : AluOut) : (s.writeAlu i r).running = s.running := by cases r <;> rfl
@[simp] theorem State.writeAlu_status (i : Fin 8) (r : AluOut) : (s.writeAlu i r).status = s.status := by cases r <;> rfl
@[simp] theorem State.writeAlu_mem (i : Fin 8) (r : AluOut) : (s.writeAlu i r).mem = s.mem := by cases r <;> rfl
@[simp] theorem State.writeAlu_out (i : Fin 8) (r : AluOut) : (s.writeAlu i r).out = s.out := by cases r <;> rfl

/-! ### Registers -/

@[simp] theorem Regs.get_set_same (r : Regs) (i : Fin 8) (v : Byte) : (r.set i v).get i = v := by
  fin_cases i <;> rfl

theorem Regs.get_set_ne (r : Regs) {i j : Fin 8} (v : Byte) (h : j ≠ i) : (r.set i v).get j = r.get j := by
  fin_cases i <;> fin_cases j <;> first | rfl | exact absurd rfl h

theorem Regs.get_set (r : Regs) (i j : Fin 8) (v : Byte) : (r.set i v).get j = if j = i then v else r.get j := by
  split
  · next h => rw [h, Regs.get_set_same]
  · next h => exact Regs.get_set_ne r v h

@[simp] theorem Regs.set_set (r : Regs) (i : Fin 8) (v w : Byte) : (r.set i v).set i w = r.set i w := by
  fin_cases i <;> rfl

@[simp] theorem Regs.set_get (r : Regs) (i : Fin 8) : r.set i (r.get i) = r := by
  fin_cases i <;> rfl

/-- Two register files that read alike everywhere are the same file. -/
theorem Regs.ext_get {r q : Regs} (h : ∀ i, r.get i = q.get i) : r = q := by
  cases r; cases q
  simpa [Regs.get] using And.intro (h 0) (And.intro (h 1) (And.intro (h 2) (And.intro (h 3)
    (And.intro (h 4) (And.intro (h 5) (And.intro (h 6) (h 7)))))))

/-- Reading a register after writing one. -/
theorem State.reg_setReg (i j : Fin 8) (v : Byte) : (s.setReg i v).reg j = if j = i then v else s.reg j :=
  Regs.get_set _ _ _ _

@[simp] theorem State.sp_decSp : s.decSp.sp = s.pushAddr := by
  simp [State.sp, State.reg]

@[simp] theorem State.sp_setSp (v : Byte) : (s.setSp v).sp = v := by
  simp [State.sp, State.reg]

end Sys2Proof.Machine
end

