-- ==== Sys2Proof/Laws/Ops.lean ====
section
/-! SUPPORT. One lemma for each shared operation, saying what it answers; the instruction proofs cite these and do not unfold
the operations. -/

namespace Sys2Proof.Machine

/-! ### `trunc8` -/

@[simp] theorem trunc8_toNat (v : Int) : ((trunc8 v).toNat : Int) = v % 256 := by
  simp [trunc8, BitVec.toNat_ofInt]
  omega

theorem trunc8_natCast (n : Nat) : trunc8 n = BitVec.ofNat 8 n := by
  simp [trunc8]

theorem State.pushAddr_eq (s : State) : s.pushAddr = s.sp - 1 := by
  apply BitVec.eq_of_toNat_eq
  have h := trunc8_toNat ((s.sp.toNat : Int) - 1)
  have h1 : (1 : Byte).toNat = 1 := rfl
  have hlt := s.sp.isLt
  simp only [State.pushAddr, BitVec.toNat_sub, h1] at *
  omega

theorem trunc8_add_one (b : Byte) : trunc8 ((b.toNat : Int) + 1) = b + 1 := by
  apply BitVec.eq_of_toNat_eq
  have h := trunc8_toNat ((b.toNat : Int) + 1)
  have h1 : (1 : Byte).toNat = 1 := rfl
  have hlt := b.isLt
  simp only [BitVec.toNat_add, h1] at *
  omega

theorem trunc8_sub (a b : Byte) : trunc8 ((a.toNat : Int) - b.toNat) = a - b := by
  apply BitVec.eq_of_toNat_eq
  have h := trunc8_toNat ((a.toNat : Int) - b.toNat)
  have ha := a.isLt
  have hb := b.isLt
  simp only [BitVec.toNat_sub] at *
  omega

theorem trunc8_sub_one (b : Byte) : trunc8 ((b.toNat : Int) - 1) = b - 1 :=
  trunc8_sub b 1

theorem trunc8_complement (a : Byte) : trunc8 (255 - (a.toNat : Int)) = ~~~a := by
  apply BitVec.eq_of_toNat_eq
  have h := trunc8_toNat (255 - (a.toNat : Int))
  have ha := a.isLt
  simp only [BitVec.toNat_not] at *
  omega

theorem trunc8_add (a b : Byte) :
    trunc8 ((a.toNat : Int) + b.toNat) = BitVec.ofNat 8 ((a.toNat + b.toNat) % 256) := by
  rw [← Int.natCast_add, trunc8_natCast]
  apply BitVec.eq_of_toNat_eq
  simp

theorem trunc8_mul (a b : Byte) :
    trunc8 ((a.toNat : Int) * b.toNat) = BitVec.ofNat 8 ((a.toNat * b.toNat) % 256) := by
  rw [← Int.natCast_mul, trunc8_natCast]
  apply BitVec.eq_of_toNat_eq
  simp

/-- A left shift by 8 or more leaves nothing (44_ext_alu.md R177). -/
theorem trunc8_shl (a b : Byte) :
    trunc8 ((a.toNat : Int) * 2 ^ b.toNat) =
      if 8 ≤ b.toNat then 0 else BitVec.ofNat 8 (a.toNat * 2 ^ b.toNat % 256) := by
  have e : (a.toNat : Int) * 2 ^ b.toNat = ((a.toNat * 2 ^ b.toNat : Nat) : Int) := by
    push_cast
    rfl
  rw [e, trunc8_natCast]
  split
  · next h =>
    obtain ⟨k, hk⟩ := Nat.exists_eq_add_of_le h
    apply BitVec.eq_of_toNat_eq
    rw [hk, Nat.pow_add, BitVec.toNat_ofNat, Nat.mul_left_comm]
    simp
  · apply BitVec.eq_of_toNat_eq
    simp

/-- A right shift by 8 or more leaves nothing (44_ext_alu.md R177). -/
theorem shr_large (a b : Byte) (h : 8 ≤ b.toNat) : BitVec.ofNat 8 (a.toNat / 2 ^ b.toNat) = 0 := by
  have h2 : 256 ≤ 2 ^ b.toNat := Nat.pow_le_pow_right (n := 2) (by decide) h
  have ha := a.isLt
  rw [Nat.div_eq_of_lt (by omega)]
  rfl

/-- A byte as a pc value (43_control.md R147). -/
@[simp] theorem byte_setWidth_toNat (b : Byte) : (b.setWidth 9).toNat = b.toNat := by
  have hb := b.isLt
  simp only [BitVec.toNat_setWidth]
  omega

/-- The advance as a 9-bit sum. -/
theorem pc_advance (p : PcWord) (n : Nat) : BitVec.ofNat 9 (p.toNat + 1 + n) = p + BitVec.ofNat 9 (1 + n) := by
  apply BitVec.eq_of_toNat_eq
  simp only [BitVec.toNat_add, BitVec.toNat_ofNat]
  omega

/-! ### Operands -/

@[simp] theorem regIndex_regByte (i : Fin 8) : regIndex (regByte i) = .ok i := by
  fin_cases i <;> rfl

theorem regIndex_lt {b : Byte} (h : b.toNat < 8) : regIndex b = .ok ⟨b.toNat, h⟩ := by
  simp [regIndex, h]

theorem regIndex_ge {b : Byte} (h : 8 ≤ b.toNat) : regIndex b = .error (.addressOutOfRange .register b.toNat) := by
  simp [regIndex, Nat.not_lt.2 h]

/-- The register check accepts exactly the bytes below 8, and gives their index. -/
theorem regIndex_ok {b : Byte} {i : Fin 8} (h : regIndex b = .ok i) : i.val = b.toNat := by
  unfold regIndex at h
  split at h
  · cases h; rfl
  · cases h

/-- A register other than the one an operand byte names. -/
theorem regIndex_ne {b : Byte} {i j : Fin 8} (h : regIndex b = .ok i) (hj : j.val ≠ b.toNat) : j ≠ i := by
  rintro rfl
  exact hj (regIndex_ok h)

/-- The one condition the register check raises. -/
theorem regIndex_error {b : Byte} {c : Condition} (h : regIndex b = .error c) :
    8 ≤ b.toNat ∧ c = .addressOutOfRange .register b.toNat := by
  unfold regIndex at h
  split at h
  · cases h
  · next hn => cases h; exact ⟨Nat.not_lt.1 hn, rfl⟩

/-! ### Memory accesses -/

theorem memRead_lt (s : State) {a : Nat} (h : a < 256) : memRead s a = .ok (s.mem.get a) := by
  simp [memRead, Config.memSize, Nat.not_le.2 h]

theorem memRead_ge (s : State) {a : Nat} (h : 256 ≤ a) : memRead s a = .error (.addressOutOfRange .memory a) := by
  simp [memRead, Config.memSize, h]

@[simp] theorem memRead_byte (s : State) (b : Byte) : memRead s b.toNat = .ok (s.mem.get b.toNat) :=
  memRead_lt s b.isLt

theorem memWrite_lt (s : State) {a : Nat} (v : Byte) (h : a < 256) :
    memWrite s a v = .ok { s with mem := s.mem.set a v } := by
  simp [memWrite, Config.memSize, Nat.not_le.2 h]

@[simp] theorem memWrite_byte (s : State) (b v : Byte) :
    memWrite s b.toNat v = .ok { s with mem := s.mem.set b.toNat v } :=
  memWrite_lt s v b.isLt

/-! ### Settling a handler -/

@[simp] theorem settle_ok (k : Kind) (s t : State) : settle k s (.ok t) = .next t := rfl

@[simp] theorem settle_error (k : Kind) (s : State) (c : Condition) :
    settle k s (.error c) = .next (s.raise c (some k.opcode)) := rfl

/-- A settled handler has a next state. -/
theorem settle_next (k : Kind) (s : State) (h : Handler) : ∃ t, settle k s h = .next t := by
  cases h <;> exact ⟨_, rfl⟩

/-! What a raised condition records (60_exceptions.md R214). -/

@[simp] theorem Condition.record_cause (c : Condition) (a : PcWord) (op : Option Byte) (st : Status) :
    (c.record a op st).cause = c.cause := by
  cases c <;> rfl

@[simp] theorem Condition.record_addr (c : Condition) (a : PcWord) (op : Option Byte) (st : Status) :
    (c.record a op st).addr = a := by
  cases c <;> rfl

@[simp] theorem Condition.record_opcode (c : Condition) (a : PcWord) (op : Option Byte) (st : Status) :
    (c.record a op st).opcode = op := by
  cases c <;> rfl

/-- A raised condition's cause is neither NONE nor HALT. -/
theorem Condition.cause_ne (c : Condition) : c.cause ≠ .none ∧ c.cause ≠ .halt := by
  cases c <;> exact ⟨Cause.noConfusion, Cause.noConfusion⟩

/-- A settled handler always answers a next state: the handler's, or the one with its condition raised. -/
theorem settle_cases {k : Kind} {s t : State} {h : Handler} (hn : settle k s h = .next t) :
    h = .ok t ∨ ∃ c, h = .error c ∧ t = s.raise c (some k.opcode) := by
  cases h with
  | ok u => cases hn; exact .inl rfl
  | error c => cases hn; exact .inr ⟨c, rfl, rfl⟩

/-! ### Sequencing in a handler -/

@[simp] theorem handler_bind_ok {α β : Type} (a : α) (f : α → Except Condition β) :
    ((Except.ok a : Except Condition α) >>= f) = f a := rfl

@[simp] theorem handler_bind_error {α β : Type} (c : Condition) (f : α → Except Condition β) :
    ((Except.error c : Except Condition α) >>= f) = .error c := rfl

@[simp] theorem handler_pure {α : Type} (a : α) : (pure a : Except Condition α) = .ok a := rfl

/-- A sequence that succeeds: its first part did, and then its second. -/
theorem handler_bind_eq_ok {α β : Type} {x : Except Condition α} {f : α → Except Condition β} {b : β}
    (h : (x >>= f) = .ok b) : ∃ a, x = .ok a ∧ f a = .ok b := by
  cases x with
  | ok a => exact ⟨a, rfl, h⟩
  | error c => cases h

/-- A sequence that raises: its first part did, or its second. -/
theorem handler_bind_eq_error {α β : Type} {x : Except Condition α} {f : α → Except Condition β} {c : Condition}
    (h : (x >>= f) = .error c) : x = .error c ∨ ∃ a, x = .ok a ∧ f a = .error c := by
  cases x with
  | ok a => exact .inr ⟨a, rfl, h⟩
  | error d => exact .inl (by cases h; rfl)

end Sys2Proof.Machine
end

