-- ==== Sys2Proof/Laws/Exec.lean ====
section
/-! SUPPORT. What each shape of handler can do: if it answers a state, then which one, and on what operands. A proof about many
instructions splits on the shapes, not on the record updates. -/

namespace Sys2Proof.Machine

/-- `exec` settles a handler, whatever the instruction: so it always answers a next state. -/
theorem exec_settles (i : Instr) (s : State) : ∃ h, exec i s = settle i.kind s h := by
  cases i <;> simp only [exec, execHlt, execRet, execPush, execPop, execPrn, execCall, execLdi, execAdd, execMul, execJmp,
    execJeq, execJne, execJgt, execJlt, execJle, execJge, execInc, execDec, execNot, execLd, execSt, execSub, execDiv,
    execMod, execCmp, execAnd, execOr, execXor, execShl, execShr] <;> exact ⟨_, rfl⟩

/-- A two-register ALU instruction that succeeds. -/
theorem aluBinary_ok {t : AluTag} {ra rb : Byte} {s u : State} (h : aluBinary t ra rb s = .ok u) :
    ∃ i j r, regIndex ra = .ok i ∧ regIndex rb = .ok j ∧ alu s.opset t (s.reg i) (s.reg j) = .ok r ∧
      u = (s.writeAlu i r).advance 2 := by
  obtain ⟨i, hi, h⟩ := handler_bind_eq_ok h
  obtain ⟨j, hj, h⟩ := handler_bind_eq_ok h
  obtain ⟨r, hr, h⟩ := handler_bind_eq_ok h
  cases h
  exact ⟨i, j, r, hi, hj, hr, rfl⟩

/-- A one-register ALU instruction that succeeds. -/
theorem aluUnary_ok {t : AluTag} {ra : Byte} {s u : State} (h : aluUnary t ra s = .ok u) :
    ∃ i r, regIndex ra = .ok i ∧ alu s.opset t (s.reg i) 0 = .ok r ∧ u = (s.writeAlu i r).advance 1 := by
  obtain ⟨i, hi, h⟩ := handler_bind_eq_ok h
  obtain ⟨r, hr, h⟩ := handler_bind_eq_ok h
  cases h
  exact ⟨i, r, hi, hr, rfl⟩

/-- A jump that succeeds: to the register's value, or past the instruction. -/
theorem jumpIf_ok {taken : Bool} {ra : Byte} {s u : State} (h : jumpIf taken ra s = .ok u) :
    ∃ i, regIndex ra = .ok i ∧ u = if taken then s.jump (s.reg i) else s.advance 1 := by
  obtain ⟨i, hi, h⟩ := handler_bind_eq_ok h
  cases h
  exact ⟨i, hi, rfl⟩

/-- The ALU gives flags for CMP alone, and a value for every other tag (41_alu.md R100). -/
theorem alu_out {o : OpSet} {t : AluTag} {a b : Byte} {r : AluOut} (h : alu o t a b = .ok r) :
    (t = .cmp ∧ r = .flags (cmpflags a b)) ∨ (t ≠ .cmp ∧ ∃ v, r = .value v) := by
  unfold alu at h
  split at h
  · cases t <;> simp only [aluApply] at h
    case cmp => cases h; exact .inl ⟨rfl, rfl⟩
    case div => split at h <;> cases h; exact .inr ⟨by decide, _, rfl⟩
    case mod => split at h <;> cases h; exact .inr ⟨by decide, _, rfl⟩
    all_goals cases h; exact .inr ⟨by decide, _, rfl⟩
  · cases h

/-- A condition the ALU raises: an unsupported tag, or a division by 0. -/
theorem alu_error {o : OpSet} {t : AluTag} {a b : Byte} {c : Condition} (h : alu o t a b = .error c) :
    (t.supported o = false ∧ c = .unsupportedOperation) ∨
      (t.supported o = true ∧ (t = .div ∨ t = .mod) ∧ b.toNat = 0 ∧ c = .divideByZero) := by
  unfold alu at h
  split at h
  · next hs =>
    cases t <;> simp only [aluApply] at h
    case div => split at h <;> cases h; exact .inr ⟨hs, .inl rfl, ‹_›, rfl⟩
    case mod => split at h <;> cases h; exact .inr ⟨hs, .inr rfl, ‹_›, rfl⟩
    all_goals cases h
  · next hs => cases h; exact .inl ⟨by simpa using hs, rfl⟩

/-- PUSH on a register: what it answers. -/
theorem execPush_of_index {ra : Byte} {i : Fin 8} (s : State) (h : regIndex ra = .ok i) :
    execPush ra s = .next ({ s.decSp with mem := s.mem.set s.pushAddr.toNat (s.decSp.reg i) }.advance 1) := by
  simp [execPush, h]

/-- POP on a register: what it answers. -/
theorem execPop_of_index {ra : Byte} {i : Fin 8} (s : State) (h : regIndex ra = .ok i) :
    execPop ra s = .next ((s.setReg i (s.mem.get s.sp.toNat)).incSp.advance 1) := by
  simp [execPop, h]

/-- CALL on a register, the return address fitting a byte: what it answers. -/
theorem execCall_of_index {ra : Byte} {i : Fin 8} (s : State) (h : regIndex ra = .ok i) (hf : s.pc.toNat + 2 < 256) :
    execCall ra s = .next ({ s.decSp with
      mem := s.mem.set s.pushAddr.toNat (BitVec.ofNat 8 (s.pc.toNat + 2)) }.jump (s.decSp.reg i)) := by
  simp [execCall, h, returnAddress, Config.memSize, Nat.not_le.2 hf, State.reg]

/-- RET: what it answers. -/
theorem execRet_eq (s : State) : execRet s = .next (s.jump (s.mem.get s.sp.toNat)).incSp := by
  simp [execRet]

/-- A PUSH that succeeds: the store is at `pushAddr`, of the register as it stands after SP changed. -/
theorem push_ok {ra : Byte} {s t : State} (h : execPush ra s = .next t) :
    (∃ i, regIndex ra = .ok i ∧
      t = { s.decSp with mem := s.mem.set s.pushAddr.toNat (s.decSp.reg i) }.advance 1) ∨
    (∃ c, regIndex ra = .error c ∧ t = s.raise c (some Kind.push.opcode)) := by
  unfold execPush at h
  cases hr : regIndex ra with
  | error c => simp [hr] at h; exact .inr ⟨c, rfl, h.symm⟩
  | ok i => simp [hr] at h; exact .inl ⟨i, rfl, h.symm⟩

/-- A POP that succeeds. -/
theorem pop_ok {ra : Byte} {s t : State} (h : execPop ra s = .next t) :
    (∃ i, regIndex ra = .ok i ∧ t = (s.setReg i (s.mem.get s.sp.toNat)).incSp.advance 1) ∨
    (∃ c, regIndex ra = .error c ∧ t = s.raise c (some Kind.pop.opcode)) := by
  unfold execPop at h
  cases hr : regIndex ra with
  | error c => simp [hr] at h; exact .inr ⟨c, rfl, h.symm⟩
  | ok i => simp [hr] at h; exact .inl ⟨i, rfl, h.symm⟩

/-- CALL: a bad index, a return address that does not fit, or the push and the jump. -/
theorem call_ok {ra : Byte} {s t : State} (h : execCall ra s = .next t) :
    (∃ i, regIndex ra = .ok i ∧ s.pc.toNat + 2 < 256 ∧
      t = { s.decSp with mem := s.mem.set s.pushAddr.toNat (BitVec.ofNat 8 (s.pc.toNat + 2)) }.jump (s.decSp.reg i)) ∨
    (∃ i, regIndex ra = .ok i ∧ 256 ≤ s.pc.toNat + 2 ∧
      t = s.raise (.addressOutOfRange .memory (s.pc.toNat + 2)) (some Kind.call.opcode)) ∨
    (∃ c, regIndex ra = .error c ∧ t = s.raise c (some Kind.call.opcode)) := by
  unfold execCall at h
  cases hr : regIndex ra with
  | error c => simp [hr] at h; exact .inr (.inr ⟨c, rfl, h.symm⟩)
  | ok i =>
    by_cases hf : 256 ≤ s.pc.toNat + 2
    · simp [hr, returnAddress, Config.memSize, hf] at h
      exact .inr (.inl ⟨i, rfl, hf, h.symm⟩)
    · simp [hr, returnAddress, Config.memSize, hf] at h
      exact .inl ⟨i, rfl, by omega, h.symm⟩

/-- RET always succeeds. -/
theorem ret_ok {s t : State} (h : execRet s = .next t) : t = (s.jump (s.mem.get s.sp.toNat)).incSp := by
  rw [execRet_eq] at h
  cases h; rfl

/-! ### What `exec` can do, once for all instructions -/

/-- The two-register ALU instructions: tag and constructor. -/
def binaryRows : List (AluTag × (Byte → Byte → Instr)) :=
  [(.add, .add), (.mul, .mul), (.sub, .sub), (.div, .div), (.mod, .mod), (.cmp, .cmp), (.and, .and), (.or, .or),
   (.xor, .xor), (.shl, .shl), (.shr, .shr)]

/-- The one-register ALU instructions: tag and constructor. -/
def unaryRows : List (AluTag × (Byte → Instr)) :=
  [(.inc, .inc), (.dec, .dec), (.not, .not)]

/-- The jumps: constructor and condition on FL. -/
def jumpRows : List ((Byte → Instr) × (Byte → Bool)) :=
  [(.jmp, fun _ => true), (.jeq, condEq), (.jne, condNe), (.jgt, condGt), (.jlt, condLt), (.jle, condLe), (.jge, condGe)]

/-- `Done s i t`: the instruction `i` completes in `s` and leaves `t`; one constructor per shape. -/
inductive Done (s : State) : Instr → State → Prop where
  | hlt : Done s .hlt ((s.halt Kind.hlt.opcode).advance 0)
  | ret : Done s .ret (s.jump (s.mem.get s.sp.toNat)).incSp
  | push {ra : Byte} {i : Fin 8} : regIndex ra = .ok i →
      Done s (.push ra) ({ s.decSp with mem := s.mem.set s.pushAddr.toNat (s.decSp.reg i) }.advance 1)
  | pop {ra : Byte} {i : Fin 8} : regIndex ra = .ok i →
      Done s (.pop ra) ((s.setReg i (s.mem.get s.sp.toNat)).incSp.advance 1)
  | prn {ra : Byte} {i : Fin 8} : regIndex ra = .ok i → Done s (.prn ra) ((s.emit (s.reg i)).advance 1)
  | call {ra : Byte} {i : Fin 8} : regIndex ra = .ok i → s.pc.toNat + 2 < 256 →
      Done s (.call ra) ({ s.decSp with
        mem := s.mem.set s.pushAddr.toNat (BitVec.ofNat 8 (s.pc.toNat + 2)) }.jump (s.decSp.reg i))
  | ldi {ra imm : Byte} {i : Fin 8} : regIndex ra = .ok i → Done s (.ldi ra imm) ((s.setReg i imm).advance 2)
  | binary {g : AluTag} {mk : Byte → Byte → Instr} {ra rb : Byte} {i j : Fin 8} {r : AluOut} :
      (g, mk) ∈ binaryRows → regIndex ra = .ok i → regIndex rb = .ok j →
      alu s.opset g (s.reg i) (s.reg j) = .ok r → Done s (mk ra rb) ((s.writeAlu i r).advance 2)
  | unary {g : AluTag} {mk : Byte → Instr} {ra : Byte} {i : Fin 8} {r : AluOut} :
      (g, mk) ∈ unaryRows → regIndex ra = .ok i → alu s.opset g (s.reg i) 0 = .ok r →
      Done s (mk ra) ((s.writeAlu i r).advance 1)
  | jump {mk : Byte → Instr} {cond : Byte → Bool} {ra : Byte} {i : Fin 8} :
      (mk, cond) ∈ jumpRows → regIndex ra = .ok i →
      Done s (mk ra) (if cond s.fl then s.jump (s.reg i) else s.advance 1)
  | ld {ra rb : Byte} {i j : Fin 8} : regIndex ra = .ok i → regIndex rb = .ok j →
      Done s (.ld ra rb) ((s.setReg i (s.mem.get (s.addrIn j))).advance 2)
  | st {ra rb : Byte} {i j : Fin 8} : regIndex ra = .ok i → regIndex rb = .ok j →
      Done s (.st ra rb) ({ s with mem := s.mem.set (s.addrIn i) (s.reg j) }.advance 2)

/-- `Raises s i c`: the instruction `i` raises `c` in `s`. -/
inductive Raises (s : State) : Instr → Condition → Prop where
  | index {i : Instr} {b : Byte} : b ∈ i.regOperands → 8 ≤ b.toNat →
      Raises s i (.addressOutOfRange .register b.toNat)
  | returnAddress {ra : Byte} : 256 ≤ s.pc.toNat + 2 →
      Raises s (.call ra) (.addressOutOfRange .memory (s.pc.toNat + 2))
  | divideByZero {i : Instr} : i.kind = .div ∨ i.kind = .mod → s.opset = .extended → Raises s i .divideByZero
  | unsupported {i : Instr} : i.inProfile s.opset = false → Raises s i .unsupportedOperation

/-- A tag the profile does not support belongs to an instruction outside the profile. -/
theorem binaryRows_unsupported {o : OpSet} {g : AluTag} {mk : Byte → Byte → Instr} (hm : (g, mk) ∈ binaryRows)
    (h : g.supported o = false) (ra rb : Byte) : (mk ra rb).inProfile o = false := by
  cases o
  · fin_cases hm <;> first | rfl | exact absurd h (by decide)
  · exact absurd h (by simp [AluTag.supported])

theorem unaryRows_unsupported {o : OpSet} {g : AluTag} {mk : Byte → Instr} (hm : (g, mk) ∈ unaryRows)
    (h : g.supported o = false) (ra : Byte) : (mk ra).inProfile o = false := by
  cases o
  · fin_cases hm <;> rfl
  · exact absurd h (by simp [AluTag.supported])

/-- Only EXTENDED supports DIV and MOD. -/
theorem supported_div_mod {o : OpSet} {g : AluTag} (hs : g.supported o = true) (hg : g = .div ∨ g = .mod) :
    o = .extended := by
  cases o
  · rcases hg with rfl | rfl <;> exact absurd hs (by decide)
  · rfl

theorem binary_cases {g : AluTag} {mk : Byte → Byte → Instr} (hm : (g, mk) ∈ binaryRows) {ra rb : Byte} {s t : State}
    (h : settle (mk ra rb).kind s (aluBinary g ra rb s) = .next t) :
    Done s (mk ra rb) t ∨ ∃ c, Raises s (mk ra rb) c ∧ t = s.raise c (some (mk ra rb).kind.opcode) := by
  have hops : (mk ra rb).regOperands = [ra, rb] := by fin_cases hm <;> rfl
  rcases settle_cases h with h | ⟨c, he, rfl⟩
  · obtain ⟨i, j, r, hi, hj, hr, rfl⟩ := aluBinary_ok h
    exact .inl (.binary hm hi hj hr)
  · refine .inr ⟨c, ?_, rfl⟩
    rcases handler_bind_eq_error he with h | ⟨i, -, h⟩
    · obtain ⟨hb, rfl⟩ := regIndex_error h
      exact .index (by simp [hops]) hb
    · rcases handler_bind_eq_error h with h | ⟨j, -, h⟩
      · obtain ⟨hb, rfl⟩ := regIndex_error h
        exact .index (by simp [hops]) hb
      · rcases handler_bind_eq_error h with h | ⟨r, -, h⟩
        · rcases alu_error h with ⟨hs, rfl⟩ | ⟨hs, hg, -, rfl⟩
          · exact .unsupported (binaryRows_unsupported hm hs ra rb)
          · refine .divideByZero ?_ (supported_div_mod hs hg)
            fin_cases hm <;> simp_all [Instr.kind]
        · cases h

theorem unary_cases {g : AluTag} {mk : Byte → Instr} (hm : (g, mk) ∈ unaryRows) {ra : Byte} {s t : State}
    (h : settle (mk ra).kind s (aluUnary g ra s) = .next t) :
    Done s (mk ra) t ∨ ∃ c, Raises s (mk ra) c ∧ t = s.raise c (some (mk ra).kind.opcode) := by
  have hops : (mk ra).regOperands = [ra] := by fin_cases hm <;> rfl
  rcases settle_cases h with h | ⟨c, he, rfl⟩
  · obtain ⟨i, r, hi, hr, rfl⟩ := aluUnary_ok h
    exact .inl (.unary hm hi hr)
  · refine .inr ⟨c, ?_, rfl⟩
    rcases handler_bind_eq_error he with h | ⟨i, -, h⟩
    · obtain ⟨hb, rfl⟩ := regIndex_error h
      exact .index (by simp [hops]) hb
    · rcases handler_bind_eq_error h with h | ⟨r, -, h⟩
      · rcases alu_error h with ⟨hs, rfl⟩ | ⟨hs, hg, -, rfl⟩
        · exact .unsupported (unaryRows_unsupported hm hs ra)
        · fin_cases hm <;> simp_all
      · cases h

theorem jump_cases {mk : Byte → Instr} {cond : Byte → Bool} (hm : (mk, cond) ∈ jumpRows) {ra : Byte} {s t : State}
    (h : settle (mk ra).kind s (jumpIf (cond s.fl) ra s) = .next t) :
    Done s (mk ra) t ∨ ∃ c, Raises s (mk ra) c ∧ t = s.raise c (some (mk ra).kind.opcode) := by
  have hops : (mk ra).regOperands = [ra] := by fin_cases hm <;> rfl
  rcases settle_cases h with h | ⟨c, he, rfl⟩
  · obtain ⟨i, hi, rfl⟩ := jumpIf_ok h
    exact .inl (.jump hm hi)
  · refine .inr ⟨c, ?_, rfl⟩
    rcases handler_bind_eq_error he with h | ⟨i, -, h⟩
    · obtain ⟨hb, rfl⟩ := regIndex_error h
      exact .index (by simp [hops]) hb
    · cases h

/-- Everything `exec` can do: the instruction completes in one of the shapes of `Done`, or raises one of the conditions of
`Raises`, which writes STATUS and `running` alone. -/
theorem exec_cases {i : Instr} {s t : State} (h : exec i s = .next t) :
    Done s i t ∨ ∃ c, Raises s i c ∧ t = s.raise c (some i.kind.opcode) := by
  cases i with
  | hlt => cases h; exact .inl .hlt
  | ret => rw [show exec .ret s = execRet s from rfl, execRet_eq] at h; cases h; exact .inl .ret
  | push ra =>
    rcases push_ok h with ⟨i, hi, rfl⟩ | ⟨c, hc, rfl⟩
    · exact .inl (.push hi)
    · obtain ⟨hb, rfl⟩ := regIndex_error hc
      exact .inr ⟨_, .index (by simp [Instr.regOperands]) hb, rfl⟩
  | pop ra =>
    rcases pop_ok h with ⟨i, hi, rfl⟩ | ⟨c, hc, rfl⟩
    · exact .inl (.pop hi)
    · obtain ⟨hb, rfl⟩ := regIndex_error hc
      exact .inr ⟨_, .index (by simp [Instr.regOperands]) hb, rfl⟩
  | prn ra =>
    rcases settle_cases h with h | ⟨c, he, rfl⟩
    · obtain ⟨i, hi, h⟩ := handler_bind_eq_ok h
      cases h; exact .inl (.prn hi)
    · rcases handler_bind_eq_error he with h | ⟨i, -, h⟩
      · obtain ⟨hb, rfl⟩ := regIndex_error h
        exact .inr ⟨_, .index (by simp [Instr.regOperands]) hb, rfl⟩
      · cases h
  | call ra =>
    rcases call_ok h with ⟨i, hi, hf, rfl⟩ | ⟨i, -, hf, rfl⟩ | ⟨c, hc, rfl⟩
    · exact .inl (.call hi hf)
    · exact .inr ⟨_, .returnAddress hf, rfl⟩
    · obtain ⟨hb, rfl⟩ := regIndex_error hc
      exact .inr ⟨_, .index (by simp [Instr.regOperands]) hb, rfl⟩
  | ldi ra imm =>
    rcases settle_cases h with h | ⟨c, he, rfl⟩
    · obtain ⟨i, hi, h⟩ := handler_bind_eq_ok h
      cases h; exact .inl (.ldi hi)
    · rcases handler_bind_eq_error he with h | ⟨i, -, h⟩
      · obtain ⟨hb, rfl⟩ := regIndex_error h
        exact .inr ⟨_, .index (by simp [Instr.regOperands]) hb, rfl⟩
      · cases h
  | ld ra rb =>
    rcases settle_cases h with h | ⟨c, he, rfl⟩
    · obtain ⟨i, hi, h⟩ := handler_bind_eq_ok h
      obtain ⟨j, hj, h⟩ := handler_bind_eq_ok h
      obtain ⟨v, hv, h⟩ := handler_bind_eq_ok h
      rw [State.addrIn, memRead_byte] at hv
      cases hv; cases h; exact .inl (.ld hi hj)
    · refine .inr ⟨c, ?_, rfl⟩
      rcases handler_bind_eq_error he with h | ⟨i, -, h⟩
      · obtain ⟨hb, rfl⟩ := regIndex_error h
        exact .index (by simp [Instr.regOperands]) hb
      · rcases handler_bind_eq_error h with h | ⟨j, -, h⟩
        · obtain ⟨hb, rfl⟩ := regIndex_error h
          exact .index (by simp [Instr.regOperands]) hb
        · rw [State.addrIn, memRead_byte] at h
          cases h
  | st ra rb =>
    rcases settle_cases h with h | ⟨c, he, rfl⟩
    · obtain ⟨i, hi, h⟩ := handler_bind_eq_ok h
      obtain ⟨j, hj, h⟩ := handler_bind_eq_ok h
      obtain ⟨v, hv, h⟩ := handler_bind_eq_ok h
      rw [State.addrIn, memWrite_byte] at hv
      cases hv; cases h; exact .inl (.st hi hj)
    · refine .inr ⟨c, ?_, rfl⟩
      rcases handler_bind_eq_error he with h | ⟨i, -, h⟩
      · obtain ⟨hb, rfl⟩ := regIndex_error h
        exact .index (by simp [Instr.regOperands]) hb
      · rcases handler_bind_eq_error h with h | ⟨j, -, h⟩
        · obtain ⟨hb, rfl⟩ := regIndex_error h
          exact .index (by simp [Instr.regOperands]) hb
        · rw [State.addrIn, memWrite_byte] at h
          cases h
  | jmp ra => exact jump_cases (mk := .jmp) (cond := fun _ => true) (by simp [jumpRows]) h
  | jeq ra => exact jump_cases (mk := .jeq) (cond := condEq) (by simp [jumpRows]) h
  | jne ra => exact jump_cases (mk := .jne) (cond := condNe) (by simp [jumpRows]) h
  | jgt ra => exact jump_cases (mk := .jgt) (cond := condGt) (by simp [jumpRows]) h
  | jlt ra => exact jump_cases (mk := .jlt) (cond := condLt) (by simp [jumpRows]) h
  | jle ra => exact jump_cases (mk := .jle) (cond := condLe) (by simp [jumpRows]) h
  | jge ra => exact jump_cases (mk := .jge) (cond := condGe) (by simp [jumpRows]) h
  | inc ra => exact unary_cases (g := .inc) (mk := .inc) (by simp [unaryRows]) h
  | dec ra => exact unary_cases (g := .dec) (mk := .dec) (by simp [unaryRows]) h
  | not ra => exact unary_cases (g := .not) (mk := .not) (by simp [unaryRows]) h
  | add ra rb => exact binary_cases (g := .add) (mk := .add) (by simp [binaryRows]) h
  | mul ra rb => exact binary_cases (g := .mul) (mk := .mul) (by simp [binaryRows]) h
  | sub ra rb => exact binary_cases (g := .sub) (mk := .sub) (by simp [binaryRows]) h
  | div ra rb => exact binary_cases (g := .div) (mk := .div) (by simp [binaryRows]) h
  | mod ra rb => exact binary_cases (g := .mod) (mk := .mod) (by simp [binaryRows]) h
  | cmp ra rb => exact binary_cases (g := .cmp) (mk := .cmp) (by simp [binaryRows]) h
  | and ra rb => exact binary_cases (g := .and) (mk := .and) (by simp [binaryRows]) h
  | or ra rb => exact binary_cases (g := .or) (mk := .or) (by simp [binaryRows]) h
  | xor ra rb => exact binary_cases (g := .xor) (mk := .xor) (by simp [binaryRows]) h
  | shl ra rb => exact binary_cases (g := .shl) (mk := .shl) (by simp [binaryRows]) h
  | shr ra rb => exact binary_cases (g := .shr) (mk := .shr) (by simp [binaryRows]) h

/-! ### What every completed instruction keeps -/

/-- Memory stays in canonical form. -/
theorem Done.mem_wf {s t : State} {i : Instr} (hd : Done s i t) (h : s.mem.wf = true) : t.mem.wf = true := by
  cases hd with
  | push | call => exact Memory.wf_set _ (BitVec.isLt _) h
  | st => exact Memory.wf_set _ (BitVec.isLt _) h
  | jump => split <;> exact h
  | binary | unary => simpa using h
  | _ => exact h

/-- Only HLT stops the core. -/
theorem Done.running_or_halt {s t : State} {i : Instr} (hd : Done s i t) :
    (i ≠ .hlt ∧ t.running = s.running ∧ t.status = s.status) ∨
    (i = .hlt ∧ t.running = false ∧ t.status = { s.status with cause := .halt, addr := s.pc, opcode := some 0x01 }) := by
  cases hd with
  | hlt => exact .inr ⟨rfl, rfl, rfl⟩
  | jump hm => refine .inl ⟨?_, ?_⟩; · fin_cases hm <;> simp
               · split <;> exact ⟨rfl, rfl⟩
  | binary hm => refine .inl ⟨?_, by simp⟩; fin_cases hm <;> simp
  | unary hm => refine .inl ⟨?_, by simp⟩; fin_cases hm <;> simp
  | _ => exact .inl ⟨by simp, rfl, rfl⟩

end Sys2Proof.Machine
end

