-- ==== Sys2Proof/Laws/PerInstr.lean ====
section
/-! SUPPORT. Statements made per instruction, one lemma per constructor. The family `EncodingShape` says of an instruction as syntax
what 30_encoding.md R71 and R77 say of its opcode: its length and the three fields of its opcode byte. -/

namespace Sys2Proof.Laws.EncodingShape

/-- The encoding is the opcode and as many operand bytes as the opcode's count field asks for, which is the format's count; bit 5
says whether it uses the ALU, bit 4 whether it is a control transfer; it decodes to itself. -/
def Statement (i : Instr) : Prop :=
  (encode i).length = 1 + operandCount i.kind.opcode ∧
  bitField i.kind.opcode 7 6 = i.kind.format.operandCount ∧
  (bitField i.kind.opcode 5 5 = 1 ↔ i.kind.usesAlu = true) ∧
  (bitField i.kind.opcode 4 4 = 1 ↔ i.kind.setsPc = true) ∧
  lookup .extended i.kind.opcode = some i.kind

/-- The statement is about the kind alone: the operand bytes do not enter the opcode. -/
theorem of_kind (i : Instr) (h : ∀ k ∈ Kind.all, bitField k.opcode 7 6 = k.format.operandCount ∧
    (bitField k.opcode 5 5 = 1 ↔ k.usesAlu = true) ∧ (bitField k.opcode 4 4 = 1 ↔ k.setsPc = true) ∧
    lookup .extended k.opcode = some k) : Statement i :=
  ⟨encode_length i, h i.kind i.kind.mem_all⟩

theorem kinds : ∀ k ∈ Kind.all, bitField k.opcode 7 6 = k.format.operandCount ∧
    (bitField k.opcode 5 5 = 1 ↔ k.usesAlu = true) ∧ (bitField k.opcode 4 4 = 1 ↔ k.setsPc = true) ∧
    lookup .extended k.opcode = some k := by
  decide

theorem hlt : Statement (.hlt) := of_kind _ kinds

theorem ret : Statement (.ret) := of_kind _ kinds

theorem push (ra : Byte) : Statement (.push ra) := of_kind _ kinds

theorem pop (ra : Byte) : Statement (.pop ra) := of_kind _ kinds

theorem prn (ra : Byte) : Statement (.prn ra) := of_kind _ kinds

theorem call (ra : Byte) : Statement (.call ra) := of_kind _ kinds

theorem ldi (ra imm : Byte) : Statement (.ldi ra imm) := of_kind _ kinds

theorem add (ra rb : Byte) : Statement (.add ra rb) := of_kind _ kinds

theorem mul (ra rb : Byte) : Statement (.mul ra rb) := of_kind _ kinds

theorem jmp (ra : Byte) : Statement (.jmp ra) := of_kind _ kinds

theorem jeq (ra : Byte) : Statement (.jeq ra) := of_kind _ kinds

theorem jne (ra : Byte) : Statement (.jne ra) := of_kind _ kinds

theorem jgt (ra : Byte) : Statement (.jgt ra) := of_kind _ kinds

theorem jlt (ra : Byte) : Statement (.jlt ra) := of_kind _ kinds

theorem jle (ra : Byte) : Statement (.jle ra) := of_kind _ kinds

theorem jge (ra : Byte) : Statement (.jge ra) := of_kind _ kinds

theorem inc (ra : Byte) : Statement (.inc ra) := of_kind _ kinds

theorem dec (ra : Byte) : Statement (.dec ra) := of_kind _ kinds

theorem not (ra : Byte) : Statement (.not ra) := of_kind _ kinds

theorem ld (ra rb : Byte) : Statement (.ld ra rb) := of_kind _ kinds

theorem st (ra rb : Byte) : Statement (.st ra rb) := of_kind _ kinds

theorem sub (ra rb : Byte) : Statement (.sub ra rb) := of_kind _ kinds

theorem div (ra rb : Byte) : Statement (.div ra rb) := of_kind _ kinds

theorem mod (ra rb : Byte) : Statement (.mod ra rb) := of_kind _ kinds

theorem cmp (ra rb : Byte) : Statement (.cmp ra rb) := of_kind _ kinds

theorem and (ra rb : Byte) : Statement (.and ra rb) := of_kind _ kinds

theorem or (ra rb : Byte) : Statement (.or ra rb) := of_kind _ kinds

theorem xor (ra rb : Byte) : Statement (.xor ra rb) := of_kind _ kinds

theorem shl (ra rb : Byte) : Statement (.shl ra rb) := of_kind _ kinds

theorem shr (ra rb : Byte) : Statement (.shr ra rb) := of_kind _ kinds

end Sys2Proof.Laws.EncodingShape
end

