-- ==== Sys2Proof/Laws/Step.lean ====
section
/-! SUPPORT. What the fetch and a step can do, once: the cases that later proofs split on, and the induction that carries an
invariant of the step to every state a run reaches. -/

namespace Sys2Proof.Machine

/-! ### The fetch -/

theorem readOperands_ok (s : State) (a n : Nat) (h : a + n ≤ 256) :
    readOperands s a n = .ok ((List.range n).map fun k => s.mem.get (a + k)) := by
  induction n generalizing a with
  | zero => rfl
  | succ n ih =>
    rw [readOperands, memRead_lt s (by omega), handler_bind_ok, ih (a + 1) (by omega), handler_bind_ok, handler_pure,
      List.range_succ_eq_map]
    simp [Nat.add_comm, Nat.add_left_comm]

/-- Operand reads that pass the end of memory fail at its first missing address (20_memory.md R47). -/
theorem readOperands_error (s : State) (a n : Nat) (h1 : a ≤ 256) (h : 256 < a + n) :
    readOperands s a n = .error (.addressOutOfRange .memory 256) := by
  induction n generalizing a with
  | zero => omega
  | succ n ih =>
    rw [readOperands]
    by_cases ha : a = 256
    · subst ha; rw [memRead_ge s (Nat.le_refl _), handler_bind_error]
    · rw [memRead_lt s (by omega), handler_bind_ok, ih (a + 1) (by omega) (by omega), handler_bind_error]

/-- The ways a fetch can fail (30_encoding.md R68, R72). -/
inductive FetchFails (s : State) : FetchFailure → Prop where
  | opcode : 256 ≤ s.pc.toNat → FetchFails s ⟨.addressOutOfRange .memory s.pc.toNat, none⟩
  | operand : s.pc.toNat < 256 → 256 ≤ s.pc.toNat + operandCount (s.mem.get s.pc.toNat) →
      FetchFails s ⟨.addressOutOfRange .memory 256, some (s.mem.get s.pc.toNat)⟩
  | unknown : s.pc.toNat + operandCount (s.mem.get s.pc.toNat) < 256 →
      lookup s.opset (s.mem.get s.pc.toNat) = none →
      FetchFails s ⟨.unknownInstruction, some (s.mem.get s.pc.toNat)⟩

/-- What a fetch answers: one of the failures, or the instruction the handler map gives for the opcode at pc, with its operand
bytes, all inside memory. -/
theorem fetch_cases (s : State) :
    (∃ f, fetchInstr s = .error f ∧ FetchFails s f) ∨
    (∃ k, fetchInstr s = .ok (k.build (s.mem.get (s.pc.toNat + 1)) (s.mem.get (s.pc.toNat + 2))) ∧
      lookup s.opset (s.mem.get s.pc.toNat) = some k ∧
      s.pc.toNat + operandCount (s.mem.get s.pc.toNat) < 256) := by
  by_cases hp : 256 ≤ s.pc.toNat
  · exact .inl ⟨_, by simp [fetchInstr, fetchBytes, memRead_ge s hp], .opcode hp⟩
  · have hp' : s.pc.toNat < 256 := Nat.not_le.1 hp
    by_cases hc : 256 ≤ s.pc.toNat + operandCount (s.mem.get s.pc.toNat)
    · have e := readOperands_error s (s.pc.toNat + 1) (operandCount (s.mem.get s.pc.toNat)) (by omega) (by omega)
      exact .inl ⟨_, by simp [fetchInstr, fetchBytes, memRead_lt s hp', e], .operand hp' hc⟩
    · have e := readOperands_ok s (s.pc.toNat + 1) (operandCount (s.mem.get s.pc.toNat)) (by omega)
      cases hl : lookup s.opset (s.mem.get s.pc.toNat) with
      | none =>
        exact .inl ⟨_, by simp [fetchInstr, fetchBytes, memRead_lt s hp', e, decode, hl], .unknown (by omega) hl⟩
      | some k =>
        refine .inr ⟨k, ?_, rfl, by omega⟩
        have hk := (lookup_eq_some.1 hl).1
        simp only [fetchInstr, fetchBytes, memRead_lt s hp', e, decode, hl]
        rw [← hk, operandCount_opcode]
        cases k <;> simp [Kind.format, Format.operandCount, Kind.build, List.range_succ]

/-! ### The step -/

/-- Everything a step can do: a running core whose fetch fails raises that condition; else it runs the fetched instruction. -/
theorem step_cases {s t : State} (h : step s = .next t) :
    s.running = true ∧
    ((∃ f, FetchFails s f ∧ t = s.raise f.cond f.opcode) ∨
     (∃ i, fetchInstr s = .ok i ∧ exec i s = .next t ∧ i.inProfile s.opset = true ∧
       i.kind.opcode = s.mem.get s.pc.toNat ∧ s.pc.toNat + operandCount i.kind.opcode < 256)) := by
  cases hr : s.running with
  | false => simp [step, hr] at h
  | true =>
    refine ⟨rfl, ?_⟩
    rcases fetch_cases s with ⟨f, hf, hc⟩ | ⟨k, hk, hl, hp⟩
    · simp [step, hr, hf] at h
      exact .inl ⟨f, hc, h.symm⟩
    · obtain ⟨hop, hprof⟩ := lookup_eq_some.1 hl
      simp only [step, hr, hk, if_true] at h
      exact .inr ⟨_, hk, h, by simpa [Instr.inProfile] using hprof, by simpa using hop, by simpa [hop] using hp⟩

/-- An invariant of the step holds of every state a run reaches from one that has it. -/
theorem Reaches.invariant {P : State → Prop} (keeps : ∀ s t, P s → step s = .next t → P t) {s t : State}
    (h : Reaches s t) (hs : P s) : P t := by
  induction h with
  | refl => exact hs
  | tail _ hstep ih => exact keeps _ _ ih hstep

end Sys2Proof.Machine
end

