-- ==== Sys2Proof/Machine/Run.lean ====
section
/-! DEFINITION. A run of the core under fuel (70_reset_and_hazards.md R248): so many steps at most, and whether the run has ended. -/

namespace Sys2Proof.Machine

/-- What a run under fuel answers. -/
inductive RunOutcome where
  /-- The run has ended in this state: the core is halted, by HLT or by a condition (60_exceptions.md R219). -/
  | ended (s : State)
  /-- The fuel is spent and the core still runs: not an end, whatever the fuel (70_reset_and_hazards.md R248). -/
  | running (s : State)
  deriving DecidableEq, Repr

/-- The state a run under fuel stands in. -/
def RunOutcome.state : RunOutcome → State
  | .ended s => s
  | .running s => s

/-- Run the core for at most `fuel` steps. A halted core has ended; a core still running when the fuel is spent has not
(70_reset_and_hazards.md R248). A running core always has a next state, so the two arms for a step that stops are never taken;
they do not call the state an end. -/
def run : Nat → State → RunOutcome
  | 0, s => if s.running then .running s else .ended s
  | fuel + 1, s =>
    if s.running then
      match step s with
      | .next t => run fuel t
      | .fault _ => .running s
      | .refused _ => .running s
    else .ended s

end Sys2Proof.Machine
end

