-- ==== Sys2Proof/Laws/Run.lean ====
section
/-! SUPPORT. The laws of a run under fuel (70_reset_and_hazards.md R248): what it answers is reached by steps, it says `ended` exactly
for halted states, an end is the same for every larger fuel, and every halted state a run reaches is found with enough fuel. -/

namespace Sys2Proof.Machine

theorem run_halted {s : State} (h : s.running = false) (fuel : Nat) : run fuel s = .ended s := by
  cases fuel <;> simp [run, h]

theorem run_zero {s : State} (h : s.running = true) : run 0 s = .running s := by
  simp [run, h]

theorem run_succ {s t : State} (h : step s = .next t) (fuel : Nat) : run (fuel + 1) s = run fuel t := by
  simp [run, (step_cases h).1, h]

/-- A running core has a next state. -/
theorem step_next {s : State} (h : s.running = true) : ∃ t, step s = .next t := by
  unfold step
  rw [if_pos h]
  split
  · next i _ =>
    obtain ⟨x, e⟩ := exec_settles i s
    rw [e]
    exact settle_next _ _ _
  · exact ⟨_, rfl⟩

theorem Reaches.head {s t u : State} (h : step s = .next t) (hr : Reaches t u) : Reaches s u := by
  induction hr with
  | refl => exact .tail .refl h
  | tail _ hs ih => exact .tail ih hs

/-- What a run under fuel answers: a state it reaches, called an end exactly when it is halted. -/
theorem run_spec (fuel : Nat) (s : State) :
    (∃ t, run fuel s = .ended t ∧ Reaches s t ∧ t.running = false) ∨
    (∃ t, run fuel s = .running t ∧ Reaches s t ∧ t.running = true) := by
  induction fuel generalizing s with
  | zero =>
    cases h : s.running
    · exact .inl ⟨s, run_halted h 0, .refl, h⟩
    · exact .inr ⟨s, run_zero h, .refl, h⟩
  | succ fuel ih =>
    cases h : s.running
    · exact .inl ⟨s, run_halted h _, .refl, h⟩
    · obtain ⟨t, ht⟩ := step_next h
      rw [run_succ ht]
      rcases ih t with ⟨u, e, hr, hu⟩ | ⟨u, e, hr, hu⟩
      · exact .inl ⟨u, e, hr.head ht, hu⟩
      · exact .inr ⟨u, e, hr.head ht, hu⟩

/-- Fuel adds up: an end stays the end, and a run that has not ended goes on from where it stands. -/
theorem run_add (m n : Nat) (s : State) : run (m + n) s = run n (run m s).state := by
  induction m generalizing s with
  | zero => cases h : s.running <;> simp [run, RunOutcome.state, h]
  | succ m ih =>
    cases h : s.running
    · rw [run_halted h, run_halted h, RunOutcome.state, run_halted h]
    · obtain ⟨t, ht⟩ := step_next h
      rw [Nat.succ_add, run_succ ht, run_succ ht, ih]

/-- An end does not depend on how much fuel is left. -/
theorem run_ended_add {m : Nat} {s t : State} (h : run m s = .ended t) (n : Nat) : run (m + n) s = .ended t := by
  rcases run_spec m s with ⟨u, e, -, hu⟩ | ⟨u, e, -⟩
  · cases h.symm.trans e
    rw [run_add, h]
    exact run_halted hu n
  · cases h.symm.trans e

/-- Every state a run reaches is where some fuel leaves it. -/
theorem Reaches.run_state {s t : State} (h : Reaches s t) : ∃ n, (run n s).state = t := by
  induction h with
  | refl => exact ⟨0, by cases h : s.running <;> simp [run, RunOutcome.state, h]⟩
  | tail _ hs ih =>
    obtain ⟨n, rfl⟩ := ih
    refine ⟨n + 1, ?_⟩
    rw [run_add, run_succ hs, run]
    split <;> rfl

end Sys2Proof.Machine
end

