-- ==== Sys2Proof/Machine/Asm.lean ====
section
/-! DEFINITION. The assembler syntax of 30_encoding.md R78, as a function from lines of text to bytes. Nothing in the core depends
on it. A line is a list of characters: an optional label `name:`, then a mnemonic and its operands, separated by spaces or a
comma. -/

namespace Sys2Proof.Machine.Asm

/-- The mnemonic of each kind, in upper case (30_encoding.md R64, R65). -/
def mnemonic : Kind → List Char
  | .hlt => ['H', 'L', 'T']
  | .ret => ['R', 'E', 'T']
  | .push => ['P', 'U', 'S', 'H']
  | .pop => ['P', 'O', 'P']
  | .prn => ['P', 'R', 'N']
  | .call => ['C', 'A', 'L', 'L']
  | .ldi => ['L', 'D', 'I']
  | .add => ['A', 'D', 'D']
  | .mul => ['M', 'U', 'L']
  | .jmp => ['J', 'M', 'P']
  | .jeq => ['J', 'E', 'Q']
  | .jne => ['J', 'N', 'E']
  | .jgt => ['J', 'G', 'T']
  | .jlt => ['J', 'L', 'T']
  | .jle => ['J', 'L', 'E']
  | .jge => ['J', 'G', 'E']
  | .inc => ['I', 'N', 'C']
  | .dec => ['D', 'E', 'C']
  | .not => ['N', 'O', 'T']
  | .ld => ['L', 'D']
  | .st => ['S', 'T']
  | .sub => ['S', 'U', 'B']
  | .div => ['D', 'I', 'V']
  | .mod => ['M', 'O', 'D']
  | .cmp => ['C', 'M', 'P']
  | .and => ['A', 'N', 'D']
  | .or => ['O', 'R']
  | .xor => ['X', 'O', 'R']
  | .shl => ['S', 'H', 'L']
  | .shr => ['S', 'H', 'R']

/-- A register operand: `R0` to `R7`, or `SP` for `R7` (30_encoding.md R78). -/
def register (t : List Char) : Option Byte :=
  match t with
  | ['R', '0'] => some 0
  | ['R', '1'] => some 1
  | ['R', '2'] => some 2
  | ['R', '3'] => some 3
  | ['R', '4'] => some 4
  | ['R', '5'] => some 5
  | ['R', '6'] => some 6
  | ['R', '7'] => some 7
  | ['S', 'P'] => some 7
  | _ => none

/-- The digits 0 to 15, each with its value; a letter digit in either case. -/
def digitValues : List (Char × Nat) :=
  [('0', 0), ('1', 1), ('2', 2), ('3', 3), ('4', 4), ('5', 5), ('6', 6), ('7', 7), ('8', 8), ('9', 9)] ++
  [('A', 10), ('B', 11), ('C', 12), ('D', 13), ('E', 14), ('F', 15)] ++
  [('a', 10), ('b', 11), ('c', 12), ('d', 13), ('e', 14), ('f', 15)]

/-- The number written with these digits in this base, after `acc`. -/
def digits (base acc : Nat) : List Char → Option Nat
  | [] => some acc
  | c :: cs =>
    match digitValues.lookup c with
    | some d => if d < base then digits base (base * acc + d) cs else none
    | none => none

/-- A number: decimal, `0x` hexadecimal or `0b` binary (30_encoding.md R78). -/
def number (t : List Char) : Option Nat :=
  match t with
  | [] => none
  | '0' :: 'x' :: c :: cs => digits 16 0 (c :: cs)
  | '0' :: 'b' :: c :: cs => digits 2 0 (c :: cs)
  | c :: cs => digits 10 0 (c :: cs)

/-- A byte from a number in 0..255 (30_encoding.md R78). -/
def byteOf (n : Nat) : Option Byte :=
  if n < 256 then some (BitVec.ofNat 8 n) else none

/-- What each label stands for: the address of the instruction that follows it (30_encoding.md R78). -/
abbrev Labels := List (List Char × Nat)

/-- LDI's immediate: a number, or a label's address (30_encoding.md R78). DESIGN CHOICE (log entry 16): the spec does not say which
names a label may have; an operand that reads as a number is one, whatever labels there are, and of two definitions of one label
the first counts. -/
def immediate (labels : Labels) (t : List Char) : Option Byte :=
  match number t with
  | some n => byteOf n
  | none => (labels.lookup t).bind byteOf

/-- Cut a line at its spaces and commas. `word` is the token being read, last character first. -/
def tokens (word : List Char) : List Char → List (List Char)
  | [] => if word.isEmpty then [] else [word.reverse]
  | c :: cs =>
    if c = ' ' ∨ c = ',' then (if word.isEmpty then tokens [] cs else word.reverse :: tokens [] cs)
    else tokens (c :: word) cs

/-- The label a token defines: a name followed by a colon. DESIGN CHOICE (log entries 14 and 16): the spec gives labels no spelling
and their names no alphabet; the name is whatever stands before the last character of the token, the colon, even nothing or
digits. -/
def labelOf (t : List Char) : Option (List Char) :=
  match t.reverse with
  | ':' :: name => some name.reverse
  | _ => none

/-- A line as its label, if it has one, and the tokens of its instruction, if it has one. -/
def splitLine (line : List Char) : Option (List Char) × List (List Char) :=
  match tokens [] line with
  | [] => (none, [])
  | t :: ts =>
    match labelOf t with
    | some name => (some name, ts)
    | none => (none, t :: ts)

/-- The kind a mnemonic names. -/
def kindOf (t : List Char) : Option Kind :=
  Kind.all.find? (fun k => mnemonic k == t)

/-- One instruction from its tokens; operands stand in encoding order (30_encoding.md R78). -/
def instruction (labels : Labels) (ts : List (List Char)) : Option Instr :=
  match ts with
  | [] => none
  | m :: args =>
    match kindOf m with
    | none => none
    | some k =>
      match k.format, args with
      | .f0, [] => some (k.build 0 0)
      | .f1r, [a] => (register a).map fun ra => k.build ra 0
      | .f2rr, [a, b] => (register a).bind fun ra => (register b).map fun rb => k.build ra rb
      | .f2ri, [a, b] => (register a).bind fun ra => (immediate labels b).map fun imm => k.build ra imm
      | _, _ => none

/-- How many bytes an instruction line takes: its mnemonic decides (30_encoding.md R77). -/
def lineLength (ts : List (List Char)) : Nat :=
  match ts with
  | [] => 0
  | m :: _ => match kindOf m with | some k => 1 + k.format.operandCount | none => 0

/-- The labels of a program whose first line stands at address `at0`, in the order of the lines. DESIGN CHOICE (log entry 16): the
spec does not say what a label defined twice means; both definitions are kept, and a use takes the first (`immediate`). -/
def labelsFrom (at0 : Nat) : List (List Char) → Labels
  | [] => []
  | line :: rest =>
    let (label, ts) := splitLine line
    let more := labelsFrom (at0 + lineLength ts) rest
    match label with
    | some name => (name, at0) :: more
    | none => more

/-- The bytes of the lines, with the labels known. -/
def assembleWith (labels : Labels) : List (List Char) → Option (List Byte)
  | [] => some []
  | line :: rest =>
    match (splitLine line).2 with
    | [] => assembleWith labels rest
    | ts => (instruction labels ts).bind fun i => (assembleWith labels rest).map fun bytes => encode i ++ bytes

/-- Assemble a program that is loaded at address 0 (70_reset_and_hazards.md R241). -/
def assemble (lines : List (List Char)) : Option (List Byte) :=
  assembleWith (labelsFrom 0 lines) lines

end Sys2Proof.Machine.Asm
end

