-- ==== Sys2Proof/Tests/Slice0.lean ====
section
/-! SUPPORT. Tests and witnesses. Every expected result is from the spec: the opcode bytes are written out from 30_encoding.md R64
and R65, the results are the vectors of 95_test_vectors.md, named in each docstring. A `witness_` theorem shows a state and
operands that meet all the hypotheses of the obligation it is named after, a clause at a time, at the bounds of their ranges. -/

namespace Sys2Proof.Tests

open Sys2Proof.Machine

/-! ### Helpers -/

/-- A running core of profile `o` at `pc`, with R0 = `a`, R1 = `b`, SP = 0xF4, and these bytes at pc. -/
def machine (o : OpSet) (pc : PcWord) (a b : Byte) (code : List Byte) : State :=
  { State.reset with
    opset := o
    pc := pc
    regs := { State.reset.regs with r0 := a, r1 := b }
    mem := storeBytes [] pc.toNat code }

/-- The same machine with one more byte in memory. -/
def withByte (s : State) (a : Nat) (v : Byte) : State :=
  { s with mem := s.mem.set a v }

/-- The same machine with SP = `v`. -/
def withSp (s : State) (v : Byte) : State :=
  s.setSp v

/-- The state an outcome holds, if it is a next state. -/
def nextState : Result → Option State
  | .next t => some t
  | .fault _ => none
  | .refused _ => none

/-- The state after one step. -/
def after (s : State) : Option State :=
  nextState (step s)

/-- What a decode gives, the error left out. -/
def reads (o : OpSet) (bytes : List Byte) : Option (Instr × List Byte) :=
  match decode o bytes with
  | .ok r => some r
  | .error _ => none

/-- Why a decode refuses, if it does. -/
def refuses (o : OpSet) (bytes : List Byte) : Option DecodeError :=
  match decode o bytes with
  | .ok _ => none
  | .error e => some e

/-- The state `s` with AddressOutOfRange recorded. -/
def outOfRange (s : State) (space : Space) (value : PcWord) (op : Option Byte) : State :=
  { s with
    running := false
    status := { cause := .addressOutOfRange, addr := s.pc, opcode := op, space := space, value := value } }

/-! ### Well-formedness: an ill-formed term for each check -/

theorem test_wellFormed_accepts_r7 : (Instr.push 7).wellFormed = true := by decide
theorem test_wellFormed_refuses_f1r_ra_8 : (Instr.push 8).wellFormed = false := by decide
theorem test_wellFormed_refuses_f2rr_ra_8 : (Instr.add 8 0).wellFormed = false := by decide
theorem test_wellFormed_refuses_f2rr_rb_8 : (Instr.add 0 8).wellFormed = false := by decide
theorem test_wellFormed_refuses_f2ri_ra_255 : (Instr.ldi 255 0).wellFormed = false := by decide
theorem test_wellFormed_takes_any_immediate : (Instr.ldi 0 255).wellFormed = true := by decide

/-! ### Decoding: one word for each constructor -/

/-- The nine rows of 30_encoding.md R64. -/
theorem test_decode_base :
    reads .base [0b00000001] = some (.hlt, []) ∧
    reads .base [0b00010001] = some (.ret, []) ∧
    reads .base [0b01000101, 0b00000011] = some (.push 3, []) ∧
    reads .base [0b01000110, 0b00000100] = some (.pop 4, []) ∧
    reads .base [0b01000111, 0b00000111] = some (.prn 7, []) ∧
    reads .base [0b01010000, 0b00000001] = some (.call 1, []) ∧
    reads .base [0b10000010, 0b00000011, 0b11111111] = some (.ldi 3 255, []) ∧
    reads .base [0b10100000, 0b00000001, 0b00000010] = some (.add 1 2, []) ∧
    reads .base [0b10100010, 0b00000010, 0b00000001] = some (.mul 2 1, []) := by decide

/-- The jumps and LD, ST of 30_encoding.md R65. -/
theorem test_decode_ext_control_memory :
    reads .extended [0b01010100, 0b00000010] = some (.jmp 2, []) ∧
    reads .extended [0b01010101, 0b00000010] = some (.jeq 2, []) ∧
    reads .extended [0b01010110, 0b00000010] = some (.jne 2, []) ∧
    reads .extended [0b01010111, 0b00000010] = some (.jgt 2, []) ∧
    reads .extended [0b01011000, 0b00000010] = some (.jlt 2, []) ∧
    reads .extended [0b01011001, 0b00000010] = some (.jle 2, []) ∧
    reads .extended [0b01011010, 0b00000010] = some (.jge 2, []) ∧
    reads .extended [0b10000011, 0b00000001, 0b00000010] = some (.ld 1 2, []) ∧
    reads .extended [0b10000100, 0b00000001, 0b00000010] = some (.st 1 2, []) := by decide

/-- The arithmetic rows of 30_encoding.md R65. -/
theorem test_decode_ext_alu :
    reads .extended [0b01100101, 0b00000101] = some (.inc 5, []) ∧
    reads .extended [0b01100110, 0b00000101] = some (.dec 5, []) ∧
    reads .extended [0b01101001, 0b00000101] = some (.not 5, []) ∧
    reads .extended [0b10100001, 0b00000001, 0b00000010] = some (.sub 1 2, []) ∧
    reads .extended [0b10100011, 0b00000001, 0b00000010] = some (.div 1 2, []) ∧
    reads .extended [0b10100100, 0b00000001, 0b00000010] = some (.mod 1 2, []) := by decide

/-- The comparing, bitwise and shift rows of 30_encoding.md R65. -/
theorem test_decode_ext_bits :
    reads .extended [0b10100111, 0b00000001, 0b00000010] = some (.cmp 1 2, []) ∧
    reads .extended [0b10101000, 0b00000001, 0b00000010] = some (.and 1 2, []) ∧
    reads .extended [0b10101010, 0b00000001, 0b00000010] = some (.or 1 2, []) ∧
    reads .extended [0b10101011, 0b00000001, 0b00000010] = some (.xor 1 2, []) ∧
    reads .extended [0b10101100, 0b00000001, 0b00000010] = some (.shl 1 2, []) ∧
    reads .extended [0b10101101, 0b00000001, 0b00000010] = some (.shr 1 2, []) := by decide

/-- An operand byte is never masked, and what follows the instruction is left (30_encoding.md R63, R67). -/
theorem test_decode_keeps_the_whole_operand_and_the_rest :
    reads .base [0x82, 0xFF, 0x01, 0x47] = some (.ldi 255 1, [0x47]) := by decide

/-- DEC-1, DEC-2, DEC-4 to DEC-8: opcodes without handler, and operands that are missing. -/
theorem test_decode_refuses_by_name :
    refuses .base [] = some .noBytes ∧
    refuses .extended [0x00] = some (.unknownOpcode 0x00) ∧
    refuses .base [0xA1, 0x00, 0x01] = some (.unknownOpcode 0xA1) ∧
    refuses .extended [0x13] = some (.unknownOpcode 0x13) ∧
    refuses .extended [0x52, 0x07] = some (.unknownOpcode 0x52) ∧
    refuses .extended [0x48, 0x00] = some (.unknownOpcode 0x48) ∧
    refuses .extended [0xC0, 0x00, 0x00] = some (.unknownOpcode 0xC0) ∧
    refuses .extended [0xC0, 0x00] = some (.truncated 0xC0) ∧
    refuses .base [0x82, 0x00] = some (.truncated 0x82) := by decide

/-- The opcode table's bit numbering: 0x0201A3 is the bytes A3 01 02. -/
theorem test_decodeTableWord :
    decodeTableWord 24 0x0201A3 = some (.div 1 2) ∧ decodeTableWord 8 0x11 = some .ret ∧
    decodeTableWord 8 0x45 = some (.push 0) ∧ decodeTableWord 8 0x00 = none := by decide

/-- From reset, the placed instruction is the one the next step runs: HLT, and DIV, which only EXTENDED has. -/
theorem test_withFetchWord_runs_the_word :
    (after (State.reset.withFetchWord 8 0x01)).map (fun t => (t.status.cause, t.pc)) = some (.halt, 1) ∧
    (after (State.reset.withFetchWord 24 0x0100A3)).map (fun t => (t.status.cause, t.opset)) =
      some (.divideByZero, .extended) := by decide

/-! ### BASE arithmetic (95_test_vectors.md L2.3, L2.4) -/

/-- ADD-3. -/
theorem test_add_wraps : (after (machine .base 0 200 100 [0xA0, 0, 1])).map (fun t => (t.reg 0, t.reg 1, t.pc)) =
    some (44, 100, 3) := by decide
/-- ADD-8: `ra` is checked before `rb`. -/
theorem test_add_checks_ra_first :
    after (machine .base 0 1 2 [0xA0, 9, 8]) = some (outOfRange (machine .base 0 1 2 [0xA0, 9, 8]) .register 9 (some 0xA0)) := by
  decide
/-- MUL-3. -/
theorem test_mul_wraps : (after (machine .base 0 255 255 [0xA2, 0, 1])).map (fun t => (t.reg 0, t.pc)) = some (1, 3) := by
  decide
/-- MUL-6: the source is also the destination. -/
theorem test_mul_squares : (after (machine .base 0 0x0F 0 [0xA2, 0, 0])).map (fun t => t.reg 0) = some 225 := by decide

/-! ### Data, output, stack (L2.1, L2.2, L2.5) -/

/-- LDI-3: LDI R7 sets SP. -/
theorem test_ldi_sets_sp : (after (machine .base 0 0 0 [0x82, 7, 0x10])).map (fun t => (t.sp, t.pc)) = some (0x10, 3) := by
  decide
/-- LDI-6: the second operand is read at 256. -/
theorem test_ldi_operand_past_the_end :
    after (machine .base 0xFE 0 0 [0x82, 0]) = some (outOfRange (machine .base 0xFE 0 0 [0x82, 0]) .memory 256 (some 0x82)) := by
  decide
/-- PRN-2. -/
theorem test_prn_sp : (after (machine .base 0 0 0 [0x47, 7])).map (fun t => (t.out, t.pc)) = some ([244], 2) := by decide
/-- PRN-5: pc goes to 256, and the fetch there fails with no opcode. -/
theorem test_prn_at_the_end_then_fetch_at_256 :
    (after (machine .base 0xFE 5 0 [0x47, 0])).map (fun t => (t.out, t.pc)) = some ([5], 0x100) ∧
    ((after (machine .base 0xFE 5 0 [0x47, 0])).bind after).map (fun t => (t.pc, t.status)) =
      some (0x100, ⟨.addressOutOfRange, 0x100, none, .memory, 256⟩) := by decide
/-- PUSH-2: SP wraps. -/
theorem test_push_wraps : (after (withSp (machine .base 4 0 7 [0x45, 1]) 0)).map (fun t => (t.sp, t.mem.get 0xFF, t.pc)) =
    some (0xFF, 7, 6) := by decide
/-- PUSH-3: the new SP is stored. -/
theorem test_push_sp : (after (machine .base 0 0 0 [0x45, 7])).map (fun t => (t.sp, t.mem.get 0xF3)) = some (0xF3, 0xF3) := by
  decide
/-- POP-2. -/
theorem test_pop_wraps :
    (after (withByte (withSp (machine .base 0 0 0 [0x46, 0]) 0xFF) 0xFF 9)).map (fun t => (t.reg 0, t.sp, t.pc)) =
      some (9, 0, 2) := by decide
/-- POP-3: written, then incremented. -/
theorem test_pop_sp :
    (after (withByte (withSp (machine .base 0 0 0 [0x46, 7]) 0xF3) 0xF3 0x50)).map State.sp = some 0x51 := by decide

/-! ### Control (L2.6, L2.7) -/

/-- CALL-2: R7 is read after the push. -/
theorem test_call_sp :
    (after (machine .base 0x10 0 0 [0x50, 7])).map (fun t => (t.sp, t.mem.get 0xF3, t.pc)) = some (0xF3, 0x12, 0xF3) := by
  decide
/-- CALL-5: the return address 256 cannot be stored. -/
theorem test_call_at_fe :
    after (machine .base 0xFE 0x10 0 [0x50, 0]) =
      some (outOfRange (machine .base 0xFE 0x10 0 [0x50, 0]) .memory 256 (some 0x50)) := by decide
/-- RET-2. -/
theorem test_ret_wraps :
    (after (withByte (withSp (machine .base 0 0 0 [0x11]) 0xFF) 0xFF 0x40)).map (fun t => (t.pc, t.sp)) =
      some (0x40, 0) := by decide
/-- HLT-1. -/
theorem test_hlt : (after (machine .base 0x0D 0 0 [0x01])).map (fun t => (t.running, t.status.cause, t.status.addr, t.pc)) =
    some (false, .halt, 0x0D, 0x0E) := by decide
/-- HLT-2, and no step of a halted core. -/
theorem test_hlt_at_the_end :
    (after (machine .base 0xFF 0 0 [0x01])).map (fun t => (t.running, t.pc)) = some (false, 0x100) ∧
    (after (machine .base 0xFF 0 0 [0x01])).bind after = none := by decide

/-! ### Dispatch (L2.8) -/

/-- DEC-1 and DEC-9: UnknownInstruction, nothing past the opcode read. -/
theorem test_unknown_opcode :
    (after (machine .base 5 0 0 [])).map (fun t => (t.pc, t.status.cause, t.status.addr, t.status.opcode)) =
      some (5, .unknownInstruction, 5, some 0x00) ∧
    (after (machine .extended 0xFF 0 0 [])).map (fun t => (t.status.cause, t.status.addr)) =
      some (.unknownInstruction, 0xFF) := by decide
/-- DEC-10: the operand read comes before the lookup. -/
theorem test_operand_read_before_lookup :
    after (machine .base 0xFF 0 0 [0xA1]) = some (outOfRange (machine .base 0xFF 0 0 [0xA1]) .memory 256 (some 0xA1)) := by
  decide
/-- DEC-13 and DEC-14: in BASE the lookup comes before any register check. -/
theorem test_lookup_before_register_check :
    (after (machine .extended 0 0 0 [0x66, 8])).map (fun t => (t.status.cause, t.status.value)) =
      some (.addressOutOfRange, 8) ∧
    (after (machine .base 0 0 0 [0x66, 8])).map (fun t => (t.status.cause, t.status.opcode)) =
      some (.unknownInstruction, some 0x66) := by decide

/-! ### EXTENDED ALU (L2.9 to L2.13) -/

/-- SUB-5. -/
theorem test_sub_wraps : (after (machine .extended 0 3 200 [0xA1, 0, 1])).map (fun t => (t.reg 0, t.pc)) = some (59, 3) := by
  decide
/-- DIV-1. -/
theorem test_div : (after (machine .extended 0 7 2 [0xA3, 0, 1])).map (fun t => t.reg 0) = some 3 := by decide
/-- DIV-5. -/
theorem test_div_by_zero :
    (after (machine .extended 0x10 7 0 [0xA3, 0, 1])).map
      (fun t => (t.reg 0, t.pc, t.status.cause, t.status.addr, t.status.opcode)) =
      some (7, 0x10, .divideByZero, 0x10, some 0xA3) := by decide
/-- MOD-2. -/
theorem test_mod : (after (machine .extended 0 255 16 [0xA4, 0, 1])).map (fun t => t.reg 0) = some 15 := by decide
/-- MOD-5. -/
theorem test_mod_by_zero :
    (after (machine .extended 0 9 0 [0xA4, 0, 1])).map (fun t => (t.reg 0, t.status.cause)) =
      some (9, .divideByZero) := by decide
/-- INC-2. -/
theorem test_inc_wraps : (after (machine .extended 0 255 0 [0x65, 0])).map (fun t => (t.reg 0, t.pc)) = some (0, 2) := by
  decide
/-- DECR-2. -/
theorem test_dec_wraps : (after (machine .extended 0 0 0 [0x66, 0])).map (fun t => (t.reg 0, t.pc)) = some (255, 2) := by
  decide
/-- CMP-2: unsigned. -/
theorem test_cmp_less : (after (machine .extended 0 0 255 [0xA7, 0, 1])).map (fun t => (t.fl, t.reg 0, t.pc)) =
    some (0b100, 0, 3) := by decide
/-- CMP-6: the old E bit is cleared. -/
theorem test_cmp_greater :
    (after ((machine .extended 0 0x80 0x7F [0xA7, 0, 1]).setFl 0b001)).map (fun t => t.fl) = some 0b010 := by decide
/-- AND-1. -/
theorem test_and : (after (machine .extended 0 0xF0 0x3C [0xA8, 0, 1])).map (fun t => t.reg 0) = some 0x30 := by decide
/-- OR-1. -/
theorem test_or : (after (machine .extended 0 0xF0 0x3C [0xAA, 0, 1])).map (fun t => t.reg 0) = some 0xFC := by decide
/-- XOR-1. -/
theorem test_xor : (after (machine .extended 0 0xF0 0x3C [0xAB, 0, 1])).map (fun t => t.reg 0) = some 0xCC := by decide
/-- NOT-1. -/
theorem test_not : (after (machine .extended 0 0x0F 0 [0x69, 0])).map (fun t => (t.reg 0, t.pc)) = some (0xF0, 2) := by decide
/-- SHL-3. -/
theorem test_shl : (after (machine .extended 0 0x81 7 [0xAC, 0, 1])).map (fun t => t.reg 0) = some 0x80 := by decide
/-- SHL-5: the amount is not masked. -/
theorem test_shl_by_255 : (after (machine .extended 0 0xFF 255 [0xAC, 0, 1])).map (fun t => t.reg 0) = some 0 := by decide
/-- SHR-2: zero-filled. -/
theorem test_shr : (after (machine .extended 0 0x80 7 [0xAD, 0, 1])).map (fun t => t.reg 0) = some 0x01 := by decide
/-- SHR-3. -/
theorem test_shr_by_8 : (after (machine .extended 0 0xFF 8 [0xAD, 0, 1])).map (fun t => t.reg 0) = some 0 := by decide

/-! ### EXTENDED jumps and memory (L2.14, L2.15) -/

/-- pc after a jump through R0 = 0x40 from 0x10 with this FL. -/
def jumpPc (op fl : Byte) : Option PcWord :=
  (after ((machine .extended 0x10 0x40 0 [op, 0]).setFl fl)).map State.pc

/-- J-1. -/
theorem test_jmp : jumpPc 0x54 0 = some 0x40 := by decide
/-- J-2, J-3 and J-4. -/
theorem test_jeq : jumpPc 0x55 0b001 = some 0x40 ∧ jumpPc 0x55 0b010 = some 0x12 ∧ jumpPc 0x55 0 = some 0x12 := by decide
/-- J-5 and J-6. -/
theorem test_jne : jumpPc 0x56 0 = some 0x40 ∧ jumpPc 0x56 0b001 = some 0x12 := by decide
/-- J-7 and J-8. -/
theorem test_jgt : jumpPc 0x57 0b010 = some 0x40 ∧ jumpPc 0x57 0b100 = some 0x12 := by decide
/-- J-9 and J-10. -/
theorem test_jlt : jumpPc 0x58 0b100 = some 0x40 ∧ jumpPc 0x58 0b001 = some 0x12 := by decide
/-- J-11, J-12 and J-13. -/
theorem test_jle : jumpPc 0x59 0b001 = some 0x40 ∧ jumpPc 0x59 0b100 = some 0x40 ∧ jumpPc 0x59 0b010 = some 0x12 := by decide
/-- J-14, J-15 and J-16. -/
theorem test_jge : jumpPc 0x5A 0b010 = some 0x40 ∧ jumpPc 0x5A 0b001 = some 0x40 ∧ jumpPc 0x5A 0b100 = some 0x12 := by decide
/-- J-17: the index is checked even when the jump is not taken. -/
theorem test_jeq_checks_the_index_untaken :
    after (machine .extended 0x10 0 0 [0x55, 8]) =
      some (outOfRange (machine .extended 0x10 0 0 [0x55, 8]) .register 8 (some 0x55)) := by decide
/-- LD-2: the address is read before the write. -/
theorem test_ld_own_address :
    (after (withByte (machine .extended 0 0x40 0 [0x83, 0, 0]) 0x40 0x99)).map (fun t => (t.reg 0, t.pc)) =
      some (0x99, 3) := by decide
/-- LD-3: address 255 is in range. -/
theorem test_ld_last_byte :
    (after (withByte (machine .extended 0 0 0xFF [0x83, 0, 1]) 0xFF 0x01)).map (fun t => t.reg 0) = some 0x01 := by decide
/-- ST-1. -/
theorem test_st : (after (machine .extended 0 0x40 7 [0x84, 0, 1])).map (fun t => (t.mem.get 0x40, t.mem.get 7, t.pc)) =
    some (7, 0, 3) := by decide
/-- ST-3: the store is seen by the next fetch. -/
theorem test_st_then_fetch :
    ((after (machine .extended 0 3 1 [0x84, 0, 1, 0x47])).bind after).map (fun t => (t.running, t.status.cause)) =
      some (false, .halt) := by decide

/-! ### A run under fuel (70_reset_and_hazards.md R248) -/

/-- L1.2's last step: one step's fuel sees the end, none does not. -/
theorem test_run_ends_on_a_condition :
    (run 0 (machine .base 3 0 0 [])).state.running = true ∧
    (run 1 (machine .base 3 0 0 [])) = .ended (run 1 (machine .base 3 0 0 [])).state ∧
    (run 1 (machine .base 3 0 0 [])).state.status.cause = .unknownInstruction := by decide

/-- J-19: a JMP to itself never ends, whatever the fuel. -/
theorem test_run_of_a_self_jump_never_ends (fuel : Nat) :
    run fuel (machine .extended 0x10 0x10 0 [0x54, 0]) = .running (machine .extended 0x10 0x10 0 [0x54, 0]) := by
  have h : step (machine .extended 0x10 0x10 0 [0x54, 0]) = .next (machine .extended 0x10 0x10 0 [0x54, 0]) := rfl
  induction fuel with
  | zero => rfl
  | succ fuel ih => rw [run_succ h, ih]

/-! ### Host side -/

/-- The decimal line of a byte has no leading zeros (42_data_output.md R122; L1.1 prints `72`, PRN-3 prints `0`). -/
theorem test_decimalLine :
    decimalLine 72 = ['7', '2'] ∧ decimalLine 0 = ['0'] ∧ decimalLine 244 = ['2', '4', '4'] := by decide

/-- The first lines of L1.1's image file, with a comment line, a blank one and a malformed one, which are skipped (R250). -/
theorem test_imageOfLines :
    imageOfLines ["10000010 # LDI R0, 8".toList, "00000000".toList, "# a comment".toList, "".toList, "0000102".toList,
      "00001000".toList] = [0x82, 0x00, 0x08] := by decide

/-- L3.3, assembled from its text (30_encoding.md R78): the bytes of the table there. -/
theorem test_assemble_subroutine :
    Asm.assemble ["LDI R0, 5".toList, "LDI R1, double".toList, "CALL R1".toList, "PRN R0".toList, "HLT".toList,
      "double: ADD R0, R0".toList, "RET".toList] =
    some [0x82, 0x00, 0x05, 0x82, 0x01, 0x0B, 0x50, 0x01, 0x47, 0x00, 0x01, 0xA0, 0x00, 0x00, 0x11] := by decide

/-- Number forms and SP as an operand; a number past 255, a missing operand and an unknown label are refused. -/
theorem test_assemble_operands :
    Asm.assemble ["ST SP, R1".toList, "LDI R2, 0x4f".toList, "LDI R2, 0b101".toList] =
      some [0x84, 7, 1, 0x82, 2, 0x4F, 0x82, 2, 5] ∧
    Asm.assemble ["LDI R0, 256".toList] = none ∧ Asm.assemble ["ADD R0".toList] = none ∧
    Asm.assemble ["LDI R0, nowhere".toList] = none := by decide

/-- Log entry 16: of two definitions of a label the first counts, and an operand that reads as a number is one. -/
theorem test_assemble_label_choices :
    Asm.assemble ["a: HLT".toList, "a: LDI R0, a".toList] = some [0x01, 0x82, 0, 0] ∧
    Asm.assemble ["HLT".toList, "7: LDI R0, 7".toList] = some [0x01, 0x82, 0, 7] := by decide

/-! ### Witnesses: states and operands that meet the hypotheses of the obligations -/

/-- Images of 256 bytes and of none, an address inside and one past the image, and an image one byte too long. -/
theorem witness_LoadedImageStandsFromAddressZeroOrIsRefused :
    (List.replicate 256 (0 : Byte)).length ≤ 256 ∧ ([] : List Byte).length ≤ 256 ∧
    ((255 : Fin 256).val < (List.replicate 256 (0 : Byte)).length) ∧ ¬ ((0 : Fin 256).val < ([] : List Byte).length) ∧
    256 < (List.replicate 257 (0 : Byte)).length := by
  simp only [List.length_replicate, List.length_nil]
  decide

/-- The invariant holds of a running machine. -/
theorem machine_inv_add : (machine .base 0 200 100 [0xA0, 0, 1]).Inv :=
  ⟨by decide, by decide, by decide, by decide, by decide, by decide⟩

/-- An ADD that completes, from a state with the invariant. -/
theorem witness_EveryStepKeepsTheInvariant :
    ∃ s t : State, s.Inv ∧ step s = .next t ∧ t.running = true :=
  ⟨_, _, machine_inv_add, rfl, rfl⟩

/-- A halted core reaches itself, and HLT has a next state. -/
theorem witness_AHaltedCoreStaysAsItIs :
    (∃ s : State, s.running = false ∧ Reaches s s) ∧ (∃ s u : State, exec .hlt s = .next u ∧ Reaches u u) :=
  ⟨⟨State.reset.halt 1, rfl, .refl⟩, ⟨State.reset, _, rfl, .refl⟩⟩

theorem witness_AStepExistsExactlyWhileRunning :
    (machine .base 256 0 0 []).running = true ∧ (State.reset.halt 1).running = false := by decide

/-- SUB in BASE, and a step from a state whose cause is not UNSUPPORTED_OPERATION. -/
theorem witness_TheAluRefusesOtherTagsAndNoStepRecordsThat :
    AluTag.supported .base .sub = false ∧
    ∃ s t : State, step s = .next t ∧ s.status.cause ≠ .unsupportedOperation ∧ t.running = true :=
  ⟨rfl, machine .extended 0 5 3 [0xA1, 0, 1], _, rfl, by decide, rfl⟩

theorem witness_OnlyCmpWritesTheFlags :
    ∃ s t : State, exec (.sub 0 1) s = .next t ∧ (∀ ra rb, Instr.sub 0 1 ≠ .cmp ra rb) ∧ t.running = true :=
  ⟨machine .extended 0 5 3 [], _, rfl, fun _ _ => by simp, rfl⟩

/-- A clause each: an instruction other than PRN, PRN of R7, and PRN of the first and the last byte that names no register. -/
theorem witness_OnlyACompletedPrnAppendsOneOutput :
    (∃ t, exec (.ldi 0 9) State.reset = .next t ∧ ∀ ra, Instr.ldi 0 9 ≠ .prn ra) ∧
    (∃ t, exec (.prn (regByte 7)) State.reset = .next t) ∧
    (∃ t, 8 ≤ (8 : Byte).toNat ∧ exec (.prn 8) State.reset = .next t) ∧
    (∃ t, 8 ≤ (255 : Byte).toNat ∧ exec (.prn 255) State.reset = .next t) :=
  ⟨⟨_, rfl, fun _ => by simp⟩, ⟨_, rfl⟩, ⟨_, by decide, rfl⟩, ⟨_, by decide, rfl⟩⟩

theorem witness_NoStepChangesTheProfile : ∃ t, step (machine .extended 0 5 3 [0xA1, 0, 1]) = .next t := ⟨_, rfl⟩

/-- A division by 0. -/
theorem witness_ConditionsArePrecise :
    ∃ s t : State, step s = .next t ∧ t.running = false ∧ t.status.cause ≠ .halt :=
  ⟨machine .extended 0x10 7 0 [0xA3, 0, 1], _, rfl, by decide, by decide⟩

theorem witness_BaseNeitherReadsNorWritesTheFlags :
    ∃ s t : State, s.opset = .base ∧ step s = .next t ∧ t.running = true :=
  ⟨machine .base 0 1 2 [0xA0, 0, 1], _, rfl, rfl, rfl⟩

/-- A clause each: a step from 254, one that brings pc to 256, and the fetch at 256. -/
theorem witness_PcStaysInRangeAndDoesNotWrap :
    (∃ t, (machine .base 254 5 0 [0x47, 0]).pc.toNat ≤ 256 ∧ step (machine .base 254 5 0 [0x47, 0]) = .next t) ∧
    (∃ t, (machine .base 254 5 0 [0x47, 0]).pc.toNat < 256 ∧ step (machine .base 254 5 0 [0x47, 0]) = .next t ∧
      t.pc.toNat = 256) ∧
    ((machine .base 256 0 0 []).running = true ∧ (machine .base 256 0 0 []).pc.toNat = 256) :=
  ⟨⟨_, by decide, rfl⟩, ⟨_, by decide, rfl, by decide⟩, by decide⟩

theorem witness_PcAdvancesPastInstructionsThatDoNotTransfer :
    ∃ t, exec (.ldi 0 9) State.reset = .next t ∧ bitField (Instr.ldi 0 9).kind.opcode 4 4 = 0 :=
  ⟨_, rfl, by decide⟩

theorem witness_ARunEndsNormallyOnlyAtHlt :
    ∃ s t : State, step s = .next t ∧ t.running = false ∧ t.status.cause = .halt :=
  ⟨machine .base 255 0 0 [0x01], _, rfl, rfl, rfl⟩

theorem witness_DecodeOfEncodeGivesTheInstruction :
    (Instr.add 255 8).inProfile .base = true ∧ (Instr.sub 255 8).inProfile .extended = true := by decide

theorem witness_DecodedBytesAreTheEncodingAndTheRest :
    decode .extended [0xA1, 1, 2, 0x00] = .ok (.sub 1 2, [0x00]) := rfl

/-- The three bytes of an ADD that end at address 255. -/
theorem witness_StepRunsTheDecodedInstruction :
    (machine .base 253 1 2 [0xA0, 0, 1]).running = true ∧ (Instr.add 0 1).inProfile .base = true ∧
    (machine .base 253 1 2 [0xA0, 0, 1]).pc.toNat + (encode (.add 0 1)).length = 256 ∧
    (∀ k : Fin 3, (machine .base 253 1 2 [0xA0, 0, 1]).mem.get (253 + k.val) = (encode (.add 0 1))[k]) := by
  decide

/-- 0x00 at address 255, and 0xC0 with its two operand bytes at 253, the last place they fit. -/
theorem witness_UnmappedOpcodesHaltWithUnknownInstruction :
    ((machine .base 255 0 0 []).running = true ∧ (255 : Nat) + operandCount 0x00 < 256 ∧ lookup .base 0x00 = none) ∧
    ((machine .extended 253 0 0 [0xC0]).mem.get 253 = 0xC0 ∧ (253 : Nat) + operandCount 0xC0 < 256 ∧
      lookup .extended 0xC0 = none) := by
  decide

/-- A fetch at 256; an operand past the end from 254 and from 255, with an opcode that has a handler and one that has none. -/
theorem witness_ReadsPastTheEndOfMemoryComeBeforeTheLookup :
    ((machine .base 256 0 0 []).running = true ∧ (machine .base 256 0 0 []).pc.toNat = 256) ∧
    ((machine .base 254 0 0 [0x82]).pc.toNat < 256 ∧
      256 ≤ (machine .base 254 0 0 [0x82]).pc.toNat + operandCount ((machine .base 254 0 0 [0x82]).mem.get 254)) ∧
    ((machine .base 255 0 0 [0xC0]).pc.toNat < 256 ∧
      256 ≤ (machine .base 255 0 0 [0xC0]).pc.toNat + operandCount ((machine .base 255 0 0 [0xC0]).mem.get 255)) := by
  decide

/-- A bad first operand, a bad second one, and both. -/
theorem witness_ABadRegisterIndexRaisesBeforeAnyWrite :
    (Instr.add 255 0).regOperands.find? (fun r => decide (8 ≤ r.toNat)) = some 255 ∧
    (Instr.add 0 8).regOperands.find? (fun r => decide (8 ≤ r.toNat)) = some 8 ∧
    (Instr.add 9 8).regOperands.find? (fun r => decide (8 ≤ r.toNat)) = some 9 ∧
    (Instr.ldi 8 0).regOperands.find? (fun r => decide (8 ≤ r.toNat)) = some 8 := by
  decide

/-! The result statements: a profile with the instruction where one is asked for, the first and the last operand byte that names no
register, and R7 as the last that does. -/

theorem witness_AddSumsTwoRegistersModulo256 :
    8 ≤ (8 : Byte).toNat ∧ 8 ≤ (255 : Byte).toNat ∧ (7 : Byte).toNat < 8 := by
  decide

theorem witness_MulMultipliesTwoRegistersModulo256 :
    8 ≤ (8 : Byte).toNat ∧ 8 ≤ (255 : Byte).toNat ∧ (7 : Byte).toNat < 8 := by
  decide

theorem witness_LdiLoadsTheImmediate :
    8 ≤ (8 : Byte).toNat ∧ 8 ≤ (255 : Byte).toNat := by
  decide

theorem witness_PrnAppendsTheRegisterToTheOutput :
    8 ≤ (8 : Byte).toNat ∧ 8 ≤ (255 : Byte).toNat := by
  decide

theorem witness_PushDecrementsSpAndStores :
    8 ≤ (8 : Byte).toNat ∧ 8 ≤ (255 : Byte).toNat := by
  decide

theorem witness_PopLoadsAndIncrementsSp :
    (6 : Fin 8) ≠ 7 ∧
    8 ≤ (8 : Byte).toNat ∧ 8 ≤ (255 : Byte).toNat := by
  decide

theorem witness_CallPushesTheReturnAddressAndJumps :
    (machine .base 253 0 0 []).pc.toNat + 2 < 256 ∧ 256 ≤ (machine .base 254 0 0 []).pc.toNat + 2 ∧
    8 ≤ (8 : Byte).toNat ∧ 8 ≤ (255 : Byte).toNat := by
  decide

theorem witness_SubSubtractsModulo256 :
    (machine .extended 0 0xF0 0x3C []).opset = .extended ∧
    8 ≤ (8 : Byte).toNat ∧ 8 ≤ (255 : Byte).toNat ∧ (7 : Byte).toNat < 8 := by
  decide

theorem witness_DivAndModDivideUnsignedOrRaise :
    (machine .extended 0 7 2 []).opset = .extended ∧ (machine .extended 0 7 2 []).reg 1 ≠ 0 ∧
    (machine .extended 0 7 0 []).opset = .extended ∧ (machine .extended 0 7 0 []).reg 1 = 0 ∧
    8 ≤ (8 : Byte).toNat ∧ 8 ≤ (255 : Byte).toNat ∧ (7 : Byte).toNat < 8 := by
  decide

theorem witness_IncAndDecWrapModulo256 :
    (machine .extended 0 0xF0 0x3C []).opset = .extended ∧
    8 ≤ (8 : Byte).toNat ∧ 8 ≤ (255 : Byte).toNat := by
  decide

theorem witness_CmpWritesTheFlagsAndNoRegister :
    (machine .extended 0 0xF0 0x3C []).opset = .extended ∧
    8 ≤ (8 : Byte).toNat ∧ 8 ≤ (255 : Byte).toNat ∧ (7 : Byte).toNat < 8 := by
  decide

theorem witness_AndOrXorAreBitwise :
    (machine .extended 0 0xF0 0x3C []).opset = .extended ∧
    8 ≤ (8 : Byte).toNat ∧ 8 ≤ (255 : Byte).toNat ∧ (7 : Byte).toNat < 8 := by
  decide

theorem witness_NotFlipsEveryBit :
    (machine .extended 0 0xF0 0x3C []).opset = .extended ∧
    8 ≤ (8 : Byte).toNat ∧ 8 ≤ (255 : Byte).toNat := by
  decide

theorem witness_ShiftsUseTheWholeAmount :
    (machine .extended 0 0xF0 0x3C []).opset = .extended ∧
    8 ≤ (8 : Byte).toNat ∧ 8 ≤ (255 : Byte).toNat ∧ (7 : Byte).toNat < 8 := by
  decide

theorem witness_JmpGoesToTheRegister :
    8 ≤ (8 : Byte).toNat ∧ 8 ≤ (255 : Byte).toNat := by
  decide

theorem witness_ConditionalJumpsFollowTheirFlags :
    8 ≤ (8 : Byte).toNat ∧ 8 ≤ (255 : Byte).toNat := by
  decide

theorem witness_LdLoadsTheByteTheRegisterPointsAt :
    8 ≤ (8 : Byte).toNat ∧ 8 ≤ (255 : Byte).toNat ∧ (7 : Byte).toNat < 8 := by
  decide

theorem witness_StStoresToTheAddressInTheFirstRegister :
    8 ≤ (8 : Byte).toNat ∧ 8 ≤ (255 : Byte).toNat ∧ (7 : Byte).toNat < 8 := by
  decide

theorem witness_AluOperationsHaveTheirValues : (1 : Byte) ≠ 0 ∧ (255 : Byte) ≠ 0 := by decide

/-- Less, greater and equal, at the ends of the range. -/
theorem witness_CmpflagsSetsExactlyOneFlag :
    (0 : Byte).toNat < (255 : Byte).toNat ∧ (255 : Byte).toNat > (0 : Byte).toNat ∧
    (255 : Byte).toNat = (255 : Byte).toNat := by
  decide

/-- A well-formed EXTENDED ALU instruction in BASE. -/
theorem witness_ExtendedAluInstructionsInBaseRaiseUnsupportedOperation :
    State.reset.opset = .base ∧ (Instr.sub 0 7).wellFormed = true ∧
    (Instr.sub 0 7).kind ∈ [Kind.inc, .dec, .not, .sub, .div, .mod, .cmp, .and, .or, .xor, .shl, .shr] := by
  decide

/-- The first address past memory and the last one inside, over a memory that lists something. -/
theorem witness_MemoryAccessesCheckTheBoundAndTouchOneByte :
    256 ≤ 256 ∧ 255 < 256 ∧ (machine .base 253 0 0 [0xA0, 0, 1]).mem.wf = true ∧
    (machine .base 253 0 0 [0xA0, 0, 1]).mem.get 253 = 0xA0 := by
  decide

theorem witness_EqualContentsAreEqualMemories :
    Memory.wf [(0, 1), (255, 7)] = true ∧ ∀ a, a < 256 → Memory.get [(0, 1), (255, 7)] a = Memory.get [(0, 1), (255, 7)] a :=
  ⟨by decide, fun _ _ => rfl⟩

/-- PUSH R0 and POP R0, and the same with R7, at SP = 0. -/
theorem witness_PushThenPopRestoresTheRegisters :
    (∃ t u, State.reset.mem.wf = true ∧ exec (.push (regByte 0)) (withSp State.reset 0) = .next t ∧
      exec (.pop (regByte 0)) t = .next u) ∧
    (∃ t u, exec (.push (regByte 7)) (withSp State.reset 0) = .next t ∧ exec (.pop (regByte 7)) t = .next u) :=
  ⟨⟨_, _, by decide, rfl, rfl⟩, ⟨_, _, rfl, rfl⟩⟩

/-- CALL R1 at 253, the last place the return address fits, and RET in the state the subroutine starts in. -/
theorem witness_CallThenRetResumesAfterTheCall :
    ∃ t v, (machine .base 253 0 0x40 [0x50, 1]).mem.wf = true ∧ (machine .base 253 0 0x40 [0x50, 1]).pc.toNat + 2 < 256 ∧
      exec (.call (regByte 1)) (machine .base 253 0 0x40 [0x50, 1]) = .next t ∧ t.reg 7 = t.reg 7 ∧
      t.mem.get (t.reg 7).toNat = t.mem.get (t.reg 7).toNat ∧ exec .ret t = .next v :=
  ⟨_, _, by decide, by decide, rfl, rfl, rfl, rfl⟩

theorem witness_LdiThenPrnEmitsTheImmediate :
    ∃ t u, exec (.ldi (regByte 7) 255) State.reset = .next t ∧ exec (.prn (regByte 7)) t = .next u :=
  ⟨_, _, rfl, rfl⟩

/-- ST-3 of L2.15, at the last place it fits: at 252, writing 255. -/
theorem witness_AStoreIsSeenByTheNextFetch :
    (machine .extended 252 255 1 [0x84, 0, 1]).running = true ∧ (machine .extended 252 255 1 [0x84, 0, 1]).opset = .extended ∧
    (machine .extended 252 255 1 [0x84, 0, 1]).mem.wf = true ∧
    (machine .extended 252 255 1 [0x84, 0, 1]).pc.toNat + 3 = 255 ∧
    (machine .extended 252 255 1 [0x84, 0, 1]).mem.get 252 = 0x84 ∧
    (machine .extended 252 255 1 [0x84, 0, 1]).mem.get 253 = regByte 0 ∧
    (machine .extended 252 255 1 [0x84, 0, 1]).mem.get 254 = regByte 1 ∧
    ((machine .extended 252 255 1 [0x84, 0, 1]).reg 0).toNat = 255 ∧
    (machine .extended 252 255 1 [0x84, 0, 1]).reg 1 = 0x01 := by
  decide

/-- A LD into R0 that completes, and one that raises. -/
theorem witness_RegisterResultFrame :
    (∃ t, exec (.ld 0 1) State.reset = .next t ∧ t.running = true ∧ (1 : Fin 8).val ≠ (0 : Byte).toNat) ∧
    (∃ t, exec (.ld 0 8) State.reset = .next t ∧ t.running = false) :=
  ⟨⟨_, rfl, rfl, by decide⟩, ⟨_, rfl, rfl⟩⟩

theorem witness_StackStoreFrame :
    (∃ t, exec (.push 0) State.reset = .next t ∧ t.running = true) ∧
    (∃ t, exec (.call 0) State.reset = .next t ∧ t.running = true ∧ (0 : Nat) ≠ State.reset.pushAddr.toNat) :=
  ⟨⟨_, rfl, rfl⟩, ⟨_, rfl, rfl, by decide⟩⟩

theorem witness_StackLoadFrame :
    (∃ t, exec (.pop 0) State.reset = .next t ∧ t.running = true ∧ (1 : Fin 8).val ≠ (0 : Byte).toNat) ∧
    (∃ t, exec .ret State.reset = .next t ∧ t.running = true) :=
  ⟨⟨_, rfl, rfl, by decide⟩, ⟨_, rfl, rfl⟩⟩

/-- ST through R7, which holds 0xF4, and a ST that raises. -/
theorem witness_StoreFrame :
    (∃ t, exec (.st 7 0) State.reset = .next t ∧ t.running = true ∧ (7 : Fin 8).val = (7 : Byte).toNat ∧
      (0xF4 : Nat) = State.reset.addrIn 7) ∧
    (∃ t, exec (.st 8 0) State.reset = .next t ∧ 8 ≤ (8 : Byte).toNat ∧ t.running = false) :=
  ⟨⟨_, rfl, rfl, by decide, by decide⟩, ⟨_, rfl, by decide, rfl⟩⟩

theorem witness_NoRegisterNoStoreFrame :
    (∃ t, exec .hlt State.reset = .next t) ∧ (∃ t, exec (.jeq 0) State.reset = .next t ∧ t.running = true) ∧
    (∃ t, exec (.prn 255) State.reset = .next t ∧ t.running = false) :=
  ⟨⟨_, rfl⟩, ⟨_, rfl, rfl⟩, ⟨_, rfl, rfl⟩⟩

end Sys2Proof.Tests
end

section
/-! A register index outside 0..7 (10_state.md R34). Every handler begins with the check of the instruction's register
operands, in operand order, so the first bad one decides what `exec` answers, and no later part of the handler runs. -/

namespace Sys2Proof.Machine

/-- Checking a list of operand bytes in order raises for the first one that names no register. -/
theorem mapM_regIndex_of_find_bad {bs : List Byte} {b : Byte}
    (h : bs.find? (fun r => decide (8 ≤ r.toNat)) = some b) :
    bs.mapM regIndex = .error (.addressOutOfRange .register b.toNat) := by
  induction bs with
  | nil => cases h
  | cons a as ih =>
    by_cases ha : 8 ≤ a.toNat
    · obtain rfl : a = b := by simpa [ha] using h
      rw [List.mapM_cons, regIndex_ge ha, handler_bind_error]
    · have hrest : as.find? (fun r => decide (8 ≤ r.toNat)) = some b := by simpa [ha] using h
      rw [List.mapM_cons, regIndex_lt (Nat.not_le.1 ha), handler_bind_ok, ih hrest, handler_bind_error]

/-- A handler without register operands begins with no check. -/
theorem settle_no_regIndex (k : Kind) (s : State) (h : Handler) :
    ∃ f, settle k s h = settle k s (([] : List Byte).mapM regIndex >>= f) :=
  ⟨fun _ => h, rfl⟩

/-- A handler that begins with the check of one register operand. -/
theorem settle_regIndex (k : Kind) (s : State) (ra : Byte) (g : Fin 8 → Handler) :
    ∃ f, settle k s (regIndex ra >>= g) = settle k s ([ra].mapM regIndex >>= f) := by
  refine ⟨fun is => g (is.getD 0 0), ?_⟩
  cases hi : regIndex ra <;> simp [hi]

/-- A handler that begins with the checks of two register operands. -/
theorem settle_regIndex_regIndex (k : Kind) (s : State) (ra rb : Byte) (g : Fin 8 → Fin 8 → Handler) :
    ∃ f, settle k s (regIndex ra >>= fun i => regIndex rb >>= g i) = settle k s ([ra, rb].mapM regIndex >>= f) := by
  refine ⟨fun is => g (is.getD 0 0) (is.getD 1 0), ?_⟩
  cases hi : regIndex ra <;> cases hj : regIndex rb <;> simp [hi, hj]

/-- Whatever the instruction, its handler first checks the register operands, in operand order. -/
theorem exec_checks_regOperands_first (i : Instr) (s : State) :
    ∃ f, exec i s = settle i.kind s (i.regOperands.mapM regIndex >>= f) := by
  cases i with
  | hlt => exact settle_no_regIndex .hlt s (.ok ((s.halt Kind.hlt.opcode).advance 0))
  | ret => exact settle_no_regIndex _ s _
  | push ra | pop ra | prn ra | call ra | ldi ra | jmp ra | jeq ra | jne ra | jgt ra | jlt ra | jle ra | jge ra
  | inc ra | dec ra | not ra => exact settle_regIndex _ s ra _
  | add ra rb | mul ra rb | ld ra rb | st ra rb | sub ra rb | div ra rb | mod ra rb | cmp ra rb | and ra rb | or ra rb
  | xor ra rb | shl ra rb | shr ra rb => exact settle_regIndex_regIndex _ s ra rb _

/-- Settles O26: the check of the register operands comes first and raises for the first bad one. -/
theorem aBadRegisterIndexRaisesBeforeAnyWrite : Obligations.ABadRegisterIndexRaisesBeforeAnyWrite := by
  intro i s b hb
  obtain ⟨f, hf⟩ := exec_checks_regOperands_first i s
  rw [hf, mapM_regIndex_of_find_bad hb, handler_bind_error, settle_error]

end Sys2Proof.Machine
end

section
/-! The bound of the address space on the two memory operations (20_memory.md R41). -/

namespace Sys2Proof.Machine

theorem memWrite_ge (s : State) {a : Nat} (v : Byte) (h : 256 ≤ a) :
    memWrite s a v = .error (.addressOutOfRange .memory a) := by
  simp [memWrite, Config.memSize, h]

/-- Settles O50: the bound check of either operation decides its outcome, and the memory a write leaves is `Memory.set`'s, by
whose laws the form is kept and only the byte at the address changes. -/
theorem memoryAccessesCheckTheBoundAndTouchOneByte : Obligations.MemoryAccessesCheckTheBoundAndTouchOneByte := by
  refine ⟨fun s a v ha => ⟨memRead_ge s ha, memWrite_ge s v ha⟩, fun s a ha => memRead_lt s ha, ?_⟩
  intro s a v hwf ha
  exact ⟨s.mem.set a v, memWrite_lt s v ha, Memory.wf_set v ha hwf, fun b => Memory.get_set a b v hwf⟩

end Sys2Proof.Machine
end

section
/-! The fields of the opcode byte (30_encoding.md R71): the two one-bit fields against the lists of mnemonics the rule means. -/

namespace Sys2Proof

theorem Kind.usesAlu_iff_mem (k : Kind) : k.usesAlu = true ↔
    k ∈ [Kind.add, .mul, .sub, .div, .mod, .inc, .dec, .cmp, .and, .or, .xor, .not, .shl, .shr] := by
  cases k <;> decide

theorem Kind.setsPc_iff_mem (k : Kind) : k.setsPc = true ↔
    k ∈ [Kind.call, .ret, .jmp, .jeq, .jne, .jgt, .jlt, .jle, .jge] := by
  cases k <;> decide

/-- Settles O20: bits 5 and 4 are the table's columns `alu` and `setpc`, and those columns mark the listed kinds. -/
theorem opcodeFieldsAgreeWithTheTable : Obligations.OpcodeFieldsAgreeWithTheTable := by
  intro k
  obtain ⟨hcount, halu, hpc, -⟩ := Laws.EncodingShape.kinds k k.mem_all
  exact ⟨hcount, halu.trans k.usesAlu_iff_mem, hpc.trans k.setsPc_iff_mem⟩

end Sys2Proof
end

section
/-! The opcodes without handler (30_encoding.md R72, R76). The mapped bytes are one opcode for each kind of the profile, which
counts the unmapped ones without trying all 256. -/

namespace Sys2Proof

/-- The kinds that have a handler in profile `o`. -/
def kindsOf (o : OpSet) : List Kind :=
  Kind.all.filter (Kind.inProfile o)

theorem mem_kindsOf {o : OpSet} {k : Kind} : k ∈ kindsOf o ↔ k.inProfile o = true := by
  simp [kindsOf, k.mem_all]

theorem lookup_isSome_iff {o : OpSet} {op : Byte} :
    (lookup o op).isSome = true ↔ ∃ k ∈ kindsOf o, k.opcode = op := by
  simp only [Option.isSome_iff_exists, lookup_eq_some, mem_kindsOf, and_comm]

/-- The bytes with a handler are the opcodes of the profile's kinds, each once. -/
theorem mappedBytes_perm (o : OpSet) :
    ((List.range 256).filter fun b => (lookup o (BitVec.ofNat 8 b)).isSome).Perm
      ((kindsOf o).map fun k => k.opcode.toNat) := by
  have hkinds : (kindsOf o).Nodup := (show Kind.all.Nodup by decide).filter _
  have hopcodes : ((kindsOf o).map fun k => k.opcode.toNat).Nodup :=
    hkinds.map fun _ _ h => Kind.opcode_injective (BitVec.eq_of_toNat_eq h)
  refine (List.perm_ext_iff_of_nodup (List.nodup_range.filter _) hopcodes).2 fun b => ?_
  simp only [List.mem_filter, List.mem_range, List.mem_map, lookup_isSome_iff]
  constructor
  · rintro ⟨hb, k, hk, hop⟩
    exact ⟨k, hk, by rw [hop, BitVec.toNat_ofNat, Nat.mod_eq_of_lt hb]⟩
  · rintro ⟨k, hk, rfl⟩
    exact ⟨k.opcode.isLt, k, hk, by simp⟩

/-- Every byte is the opcode of one kind of the profile or has no handler. -/
theorem length_unmappedBytes (o : OpSet) :
    ((List.range 256).filter fun b => (lookup o (BitVec.ofNat 8 b)).isNone).length = 256 - (kindsOf o).length := by
  have hsplit := List.length_eq_length_filter_add (l := List.range 256) fun b => (lookup o (BitVec.ofNat 8 b)).isSome
  have hmapped := (mappedBytes_perm o).length_eq
  simp only [List.length_range, List.length_map, Option.not_isSome] at hsplit hmapped
  omega

/-- The opcodes of NOP, IRET, INT and PRA, which the spec leaves out of both profiles, have no handler (30_encoding.md R76). -/
theorem lookup_outOfScope (o : OpSet) {b : Byte} (hb : b ∈ [(0x00 : Byte), 0x13, 0x52, 0x48]) : lookup o b = none := by
  have hne : ∀ b ∈ [(0x00 : Byte), 0x13, 0x52, 0x48], ∀ k ∈ Kind.all, k.opcode ≠ b := by decide
  refine Option.eq_none_iff_forall_ne_some.2 fun k hk => ?_
  exact hne b hb k k.mem_all (lookup_eq_some.1 hk).1

end Sys2Proof
end

section
/-! The steps whose fetch fails (30_encoding.md R67, R68, R72): the three ways to fail exclude each other and a completed fetch,
so each one's condition alone decides the step. -/

namespace Sys2Proof.Machine

theorem FetchFails.unique {s : State} {f g : FetchFailure} (hf : FetchFails s f) (hg : FetchFails s g) : g = f := by
  cases hf with
  | opcode _ =>
    cases hg with
    | opcode _ => rfl
    | operand _ _ | unknown _ _ => omega
  | operand _ _ =>
    cases hg with
    | operand _ _ => rfl
    | opcode _ | unknown _ _ => omega
  | unknown _ _ =>
    cases hg with
    | unknown _ _ => rfl
    | opcode _ | operand _ _ => omega

theorem FetchFails.fetchInstr_eq {s : State} {f : FetchFailure} (hf : FetchFails s f) : fetchInstr s = .error f := by
  rcases fetch_cases s with ⟨g, hg, hfails⟩ | ⟨k, -, hlookup, hinside⟩
  · rw [hg, hf.unique hfails]
  · cases hf with
    | opcode _ | operand _ _ => omega
    | unknown _ hnone => simp [hnone] at hlookup

theorem FetchFails.step_eq {s : State} {f : FetchFailure} (hf : FetchFails s f) (hrun : s.running = true) :
    step s = .next (s.raise f.cond f.opcode) := by
  simp [step, hrun, hf.fetchInstr_eq]

/-- A halted core reaches only itself (30_encoding.md R66). -/
theorem Reaches.eq_of_halted {t u : State} (h : Reaches t u) (hhalted : t.running = false) : u = t := by
  obtain ⟨n, hn⟩ := h.run_state
  rw [run_halted hhalted] at hn
  exact hn.symm

/-- Settles O23: the failing lookup decides the step, and the state it raises is halted; the counts are those of the profile's
kinds, taken from 256. -/
theorem unmappedOpcodesHaltWithUnknownInstruction : Obligations.UnmappedOpcodesHaltWithUnknownInstruction := by
  refine ⟨fun s hrun hinside hnone => ?_, length_unmappedBytes .base, length_unmappedBytes .extended,
    fun o b hb => lookup_outOfScope o hb⟩
  exact ⟨_, (FetchFails.unknown hinside hnone).step_eq hrun, rfl, fun u hu => hu.eq_of_halted rfl⟩

/-- Settles O24: both are failures of the fetch before the lookup, whose condition is the one the step raises. -/
theorem readsPastTheEndOfMemoryComeBeforeTheLookup : Obligations.ReadsPastTheEndOfMemoryComeBeforeTheLookup := by
  refine ⟨fun s hrun hpc => ?_, fun s hrun hpc hpast => (FetchFails.operand hpc hpast).step_eq hrun⟩
  have h := (FetchFails.opcode (s := s) hpc.ge).step_eq hrun
  rwa [hpc] at h

end Sys2Proof.Machine
end

section
/-! What the ALU answers (41_alu.md R101, R102, 44_ext_alu.md R160): each operation in arithmetic on natural numbers. -/

namespace Sys2Proof.Machine

/-- `trunc8` of an integer is any natural number congruent to it modulo 256, taken as a byte. -/
theorem trunc8_eq_ofNat {v : Int} {n : Nat} (h : v % 256 = (n : Int) % 256) : trunc8 v = BitVec.ofNat 8 n := by
  apply BitVec.eq_of_toNat_eq
  have hv := trunc8_toNat v
  rw [BitVec.toNat_ofNat]
  omega

theorem byte_toNat_ne_zero {b : Byte} (hb : b ≠ 0) : b.toNat ≠ 0 :=
  fun h => hb (BitVec.eq_of_toNat_eq h)

/-- A right shift by the whole amount, whose quotient is 0 from 8 on (44_ext_alu.md R177). -/
theorem ofNat_shr (a b : Byte) :
    BitVec.ofNat 8 (a.toNat / 2 ^ b.toNat) = if 8 ≤ b.toNat then 0 else BitVec.ofNat 8 (a.toNat / 2 ^ b.toNat) := by
  split
  · next h => exact shr_large a b h
  · rfl

theorem alu_of_supported {o : OpSet} {g : AluTag} (h : g.supported o = true) (a b : Byte) :
    alu o g a b = aluApply g a b := by
  simp [alu, h]

theorem alu_of_unsupported {o : OpSet} {g : AluTag} (h : g.supported o = false) (a b : Byte) :
    alu o g a b = .error .unsupportedOperation := by
  simp [alu, h]

theorem AluTag.supported_base_iff (g : AluTag) : g.supported .base = true ↔ g = .add ∨ g = .mul := by
  cases g <;> decide

theorem alu_add (o : OpSet) (a b : Byte) :
    alu o .add a b = .ok (.value (BitVec.ofNat 8 ((a.toNat + b.toNat) % 256))) := by
  rw [alu_of_supported (by cases o <;> rfl), aluApply, trunc8_add]

theorem alu_mul (o : OpSet) (a b : Byte) :
    alu o .mul a b = .ok (.value (BitVec.ofNat 8 ((a.toNat * b.toNat) % 256))) := by
  rw [alu_of_supported (by cases o <;> rfl), aluApply, trunc8_mul]

/-! The operations of EXTENDED alone, where every tag is supported. -/

theorem alu_sub (a b : Byte) :
    alu .extended .sub a b = .ok (.value (BitVec.ofNat 8 ((a.toNat + 256 - b.toNat) % 256))) := by
  have hb := b.isLt
  rw [alu_of_supported rfl, aluApply, trunc8_eq_ofNat (n := (a.toNat + 256 - b.toNat) % 256) (by omega)]

theorem alu_div {b : Byte} (a : Byte) (hb : b ≠ 0) :
    alu .extended .div a b = .ok (.value (BitVec.ofNat 8 (a.toNat / b.toNat))) := by
  rw [alu_of_supported rfl, aluApply, if_neg (byte_toNat_ne_zero hb)]

theorem alu_mod {b : Byte} (a : Byte) (hb : b ≠ 0) :
    alu .extended .mod a b = .ok (.value (BitVec.ofNat 8 (a.toNat % b.toNat))) := by
  rw [alu_of_supported rfl, aluApply, if_neg (byte_toNat_ne_zero hb)]

theorem alu_inc (a b : Byte) : alu .extended .inc a b = .ok (.value (BitVec.ofNat 8 ((a.toNat + 1) % 256))) := by
  rw [alu_of_supported rfl, aluApply, trunc8_eq_ofNat (n := (a.toNat + 1) % 256) (by omega)]

theorem alu_dec (a b : Byte) : alu .extended .dec a b = .ok (.value (BitVec.ofNat 8 ((a.toNat + 255) % 256))) := by
  rw [alu_of_supported rfl, aluApply, trunc8_eq_ofNat (n := (a.toNat + 255) % 256) (by omega)]

theorem alu_not (a b : Byte) : alu .extended .not a b = .ok (.value (BitVec.ofNat 8 (255 - a.toNat))) := by
  have ha := a.isLt
  rw [alu_of_supported rfl, aluApply, trunc8_eq_ofNat (n := 255 - a.toNat) (by omega)]

theorem alu_shl (a b : Byte) : alu .extended .shl a b =
    .ok (.value (if 8 ≤ b.toNat then 0 else BitVec.ofNat 8 (a.toNat * 2 ^ b.toNat % 256))) := by
  rw [alu_of_supported rfl, aluApply, trunc8_shl]

theorem alu_shr (a b : Byte) : alu .extended .shr a b =
    .ok (.value (if 8 ≤ b.toNat then 0 else BitVec.ofNat 8 (a.toNat / 2 ^ b.toNat))) := by
  rw [alu_of_supported rfl, aluApply, ← ofNat_shr]

/-- Settles O36: one lemma for each arithmetic operation; the bitwise ones and CMP are the table's row as it stands. -/
theorem aluOperationsHaveTheirValues : Obligations.AluOperationsHaveTheirValues :=
  ⟨fun o a b => ⟨alu_add o a b, alu_mul o a b⟩,
    fun a b => ⟨alu_sub a b, alu_div a, alu_mod a, alu_inc a b, alu_dec a b, rfl, rfl, rfl, alu_not a b, alu_shl a b,
      alu_shr a b, rfl⟩⟩

end Sys2Proof.Machine
end

section
/-! No step records UNSUPPORTED_OPERATION (60_exceptions.md R213): the fetch raises other conditions, and the lookup lets through
only instructions of the profile, whose tags the profile's ALU supports. -/

namespace Sys2Proof.Machine

theorem Condition.cause_ne_unsupportedOperation {c : Condition} (h : c ≠ .unsupportedOperation) :
    c.cause ≠ .unsupportedOperation := by
  cases c with
  | unsupportedOperation => exact absurd rfl h
  | unknownInstruction | addressOutOfRange | divideByZero => exact Cause.noConfusion

theorem FetchFails.cond_ne_unsupportedOperation {s : State} {f : FetchFailure} (h : FetchFails s f) :
    f.cond ≠ .unsupportedOperation := by
  cases h <;> exact Condition.noConfusion

/-- An instruction of the profile does not find its ALU tag unsupported. -/
theorem Raises.ne_unsupportedOperation {s : State} {i : Instr} {c : Condition} (h : Raises s i c)
    (hprofile : i.inProfile s.opset = true) : c ≠ .unsupportedOperation := by
  cases h with
  | unsupported hout => exact absurd hprofile (by simp [hout])
  | index | returnAddress | divideByZero => exact Condition.noConfusion

/-- What a step does to the recorded cause: it stays, or HLT's is recorded, or that of a condition other than
UnsupportedOperation. -/
theorem step_cause {s t : State} (h : step s = .next t) :
    t.status.cause = s.status.cause ∨ t.status.cause = .halt ∨
      ∃ c : Condition, c ≠ .unsupportedOperation ∧ t.status.cause = c.cause := by
  obtain ⟨-, ⟨f, hf, rfl⟩ | ⟨i, -, hexec, hprofile, -⟩⟩ := step_cases h
  · exact .inr (.inr ⟨f.cond, hf.cond_ne_unsupportedOperation, by simp⟩)
  · obtain hdone | ⟨c, hc, rfl⟩ := exec_cases hexec
    · obtain ⟨-, -, hstatus⟩ | ⟨-, -, hstatus⟩ := hdone.running_or_halt
      · exact .inl (by rw [hstatus])
      · exact .inr (.inl (by rw [hstatus]))
    · exact .inr (.inr ⟨c, hc.ne_unsupportedOperation hprofile, by simp⟩)

/-- Settles O9: the gate of `alu` is the profile, and of the causes a step can leave only the earlier one may be
UNSUPPORTED_OPERATION. -/
theorem theAluRefusesOtherTagsAndNoStepRecordsThat : Obligations.TheAluRefusesOtherTagsAndNoStepRecordsThat := by
  refine ⟨fun o g a b h => alu_of_unsupported h a b, AluTag.supported_base_iff, fun s t h hs => ?_⟩
  obtain hcause | hcause | ⟨c, hc, hcause⟩ := step_cause h
  · rwa [hcause]
  · rw [hcause]; exact Cause.noConfusion
  · rw [hcause]; exact Condition.cause_ne_unsupportedOperation hc

end Sys2Proof.Machine
end

section
/-! The instructions of format F2RR through the ALU (41_alu.md R104): the next state of a form whose ALU gives a value, and the
raising forms of any instruction, by the place of the first operand that names no register (10_state.md R34). -/

namespace Sys2Proof.Machine

theorem exec_bad_first_operand {i : Instr} {ra : Byte} {rest : List Byte} (s : State) (hops : i.regOperands = ra :: rest)
    (ha : 8 ≤ ra.toNat) : exec i s = .next (s.raise (.addressOutOfRange .register ra.toNat) (some i.kind.opcode)) :=
  aBadRegisterIndexRaisesBeforeAnyWrite i s ra (by simp [hops, ha])

theorem exec_bad_second_operand {i : Instr} {ra rb : Byte} {rest : List Byte} (s : State)
    (hops : i.regOperands = ra :: rb :: rest) (ha : ra.toNat < 8) (hb : 8 ≤ rb.toNat) :
    exec i s = .next (s.raise (.addressOutOfRange .register rb.toNat) (some i.kind.opcode)) :=
  aBadRegisterIndexRaisesBeforeAnyWrite i s rb (by simp [hops, Nat.not_le.2 ha, hb])

/-- A result written to the first register, and pc past the three bytes. -/
theorem aluBinary_value {g : AluTag} {s : State} {i j : Fin 8} {v : Byte}
    (h : alu s.opset g (s.reg i) (s.reg j) = .ok (.value v)) :
    aluBinary g (regByte i) (regByte j) s = .ok { s with regs := s.regs.set i v, pc := s.pc + 3 } := by
  have hpc : (s.setReg i v).advance 2 = { s with regs := s.regs.set i v, pc := s.pc + 3 } := by
    simp [State.advance, State.setReg, pc_advance]
  simp [aluBinary, h, hpc]

theorem exec_add (ra rb : Byte) (s : State) : exec (.add ra rb) s = settle .add s (aluBinary .add ra rb s) := rfl

theorem exec_mul (ra rb : Byte) (s : State) : exec (.mul ra rb) s = settle .mul s (aluBinary .mul ra rb s) := rfl

/-- Settles O27: the ALU's ADD in the shared shape of the two-register instructions, and the two raising forms. -/
theorem addSumsTwoRegistersModulo256 : Obligations.AddSumsTwoRegistersModulo256 := by
  refine ⟨fun ra rb => rfl, fun s i j => ?_, fun s ra rb ha => exec_bad_first_operand s rfl ha,
    fun s ra rb ha hb => exec_bad_second_operand s rfl ha hb⟩
  rw [exec_add, aluBinary_value (alu_add _ _ _), settle_ok]

/-- Settles O28: the ALU's MUL in the shared shape of the two-register instructions, and the two raising forms. -/
theorem mulMultipliesTwoRegistersModulo256 : Obligations.MulMultipliesTwoRegistersModulo256 := by
  refine ⟨fun ra rb => rfl, fun s i j => ?_, fun s ra rb ha => exec_bad_first_operand s rfl ha,
    fun s ra rb ha hb => exec_bad_second_operand s rfl ha hb⟩
  rw [exec_mul, aluBinary_value (alu_mul _ _ _), settle_ok]

end Sys2Proof.Machine
end

section
/-! Data movement, output and stack (42_data_output.md): LDI, PRN, PUSH and POP on a register. The raising forms are those of any
instruction whose first operand names no register. -/

namespace Sys2Proof.Machine

/-- The advance as a record update (30_encoding.md R75). -/
theorem State.advance_eq (s : State) (n : Nat) : s.advance n = { s with pc := s.pc + BitVec.ofNat 9 (1 + n) } := by
  rw [State.advance, pc_advance]

theorem State.decSp_eq (s : State) : s.decSp = s.setReg 7 (s.reg 7 - 1) := by
  rw [State.decSp, State.pushAddr_eq]; rfl

theorem State.incSp_eq (s : State) : s.incSp = s.setReg 7 (s.reg 7 + 1) := by
  rw [State.incSp, trunc8_add_one]; rfl

/-- LDI on a register: what it answers. -/
theorem execLdi_of_index {ra : Byte} {i : Fin 8} (imm : Byte) (s : State) (h : regIndex ra = .ok i) :
    execLdi ra imm s = .next ((s.setReg i imm).advance 2) := by
  simp [execLdi, h]

/-- PRN on a register: what it answers. -/
theorem execPrn_of_index {ra : Byte} {i : Fin 8} (s : State) (h : regIndex ra = .ok i) :
    execPrn ra s = .next ((s.emit (s.reg i)).advance 1) := by
  simp [execPrn, h]

theorem exec_ldi (ra imm : Byte) (s : State) : exec (.ldi ra imm) s = execLdi ra imm s := rfl

theorem exec_prn (ra : Byte) (s : State) : exec (.prn ra) s = execPrn ra s := rfl

theorem exec_push (ra : Byte) (s : State) : exec (.push ra) s = execPush ra s := rfl

theorem exec_pop (ra : Byte) (s : State) : exec (.pop ra) s = execPop ra s := rfl

/-- Settles O29: the write and the advance past three bytes, and the raising form. -/
theorem ldiLoadsTheImmediate : Obligations.LdiLoadsTheImmediate := by
  refine ⟨fun ra imm => rfl, fun s i imm => ?_, fun s ra imm ha => exec_bad_first_operand s rfl ha⟩
  rw [exec_ldi, execLdi_of_index imm s (regIndex_regByte i), State.advance_eq]
  rfl

/-- Settles O30: the append and the advance past two bytes, and the raising form. -/
theorem prnAppendsTheRegisterToTheOutput : Obligations.PrnAppendsTheRegisterToTheOutput := by
  refine ⟨fun ra => rfl, fun s i => ?_, fun s ra ha => exec_bad_first_operand s rfl ha⟩
  rw [exec_prn, execPrn_of_index s (regIndex_regByte i), State.advance_eq]
  rfl

/-- Settles O31: the register is read after SP changed, so R7 gives the new SP and every other register its old value. -/
theorem pushDecrementsSpAndStores : Obligations.PushDecrementsSpAndStores := by
  refine ⟨fun ra => rfl, fun s i => ?_, fun s ra ha => exec_bad_first_operand s rfl ha⟩
  rw [exec_push, execPush_of_index s (regIndex_regByte i), State.advance_eq, State.pushAddr_eq, State.decSp_eq,
    State.reg_setReg]
  rfl

/-- POP on a register: SP is incremented as the register's write left it. -/
theorem exec_pop_regByte (s : State) (i : Fin 8) :
    exec (.pop (regByte i)) s =
      .next { s with
        regs := (s.regs.set i (s.mem.get (s.reg 7).toNat)).set 7
          ((if 7 = i then s.mem.get (s.reg 7).toNat else s.reg 7) + 1)
        pc := s.pc + 2 } := by
  rw [exec_pop, execPop_of_index s (regIndex_regByte i), State.advance_eq, State.incSp_eq, State.reg_setReg]
  rfl

/-- Settles O32: the incremented SP is the old one for a register other than R7 and the popped byte for R7, where the second
write of the register covers the first. -/
theorem popLoadsAndIncrementsSp : Obligations.PopLoadsAndIncrementsSp := by
  refine ⟨fun ra => rfl, fun s i hi => ?_, fun s => ?_, fun s ra ha => exec_bad_first_operand s rfl ha⟩
  · rw [exec_pop_regByte, if_neg hi.symm]
  · rw [exec_pop_regByte, if_pos rfl, Regs.set_set]

end Sys2Proof.Machine
end

section
/-! OUT grows by PRN alone (42_data_output.md R123): of the completed instructions only PRN's shape emits, and a raised condition
leaves OUT as it was (60_exceptions.md R216). -/

namespace Sys2Proof.Machine

theorem Done.out_eq {s t : State} {i : Instr} (hd : Done s i t) (hi : ∀ ra, i ≠ .prn ra) : t.out = s.out := by
  cases hd with
  | prn => exact absurd rfl (hi _)
  | binary | unary => simp
  | jump => split <;> rfl
  | _ => rfl

theorem exec_out_eq {i : Instr} {s t : State} (h : exec i s = .next t) (hi : ∀ ra, i ≠ .prn ra) : t.out = s.out := by
  obtain hdone | ⟨c, -, rfl⟩ := exec_cases h
  · exact hdone.out_eq hi
  · exact s.raise_out c _

/-- Settles O11: every shape but PRN's keeps OUT, and PRN has the one answer O30 gives for its operand, in either form. -/
theorem onlyACompletedPrnAppendsOneOutput : Obligations.OnlyACompletedPrnAppendsOneOutput := by
  obtain ⟨-, hemits, hraises⟩ := prnAppendsTheRegisterToTheOutput
  refine ⟨fun i s t h hi => exec_out_eq h hi, fun s t i h => ?_, fun s t ra ha h => ?_⟩
  · cases (hemits s i).symm.trans h
    rfl
  · cases (hraises s ra ha).symm.trans h
    rfl

end Sys2Proof.Machine
end

section
/-! Halt, call and return (43_control.md): the next states of HLT, CALL and RET, the raising forms of CALL, and that a halted core
has no step and reaches only itself. -/

namespace Sys2Proof.Machine

theorem step_ne_next_of_halted {s : State} (hhalted : s.running = false) (t : State) : step s ≠ .next t := by
  intro h
  obtain ⟨hrun, -⟩ := step_cases h
  rw [hhalted] at hrun
  cases hrun

/-- CALL on a register, the return address not fitting a byte: what it answers. -/
theorem execCall_of_returnAddress_ge {ra : Byte} {i : Fin 8} (s : State) (h : regIndex ra = .ok i)
    (hpast : 256 ≤ s.pc.toNat + 2) :
    execCall ra s = .next (s.raise (.addressOutOfRange .memory (s.pc.toNat + 2)) (some 0x50)) := by
  have hret : returnAddress s = .error (.addressOutOfRange .memory (s.pc.toNat + 2)) := if_pos hpast
  rw [execCall, h, handler_bind_ok, hret, handler_bind_error, settle_error]
  rfl

theorem exec_hlt (s : State) : exec .hlt s = .next ((s.halt Kind.hlt.opcode).advance 0) := rfl

theorem exec_call (ra : Byte) (s : State) : exec (.call ra) s = execCall ra s := rfl

theorem exec_ret (s : State) : exec .ret s = execRet s := rfl

/-- Settles O7: a step starts from a running core only, so a halted one has none; HLT's state is halted. -/
theorem aHaltedCoreStaysAsItIs : Obligations.AHaltedCoreStaysAsItIs := by
  have hstays (s : State) (hs : s.running = false) : (∀ t, step s ≠ .next t) ∧ ∀ t, Reaches s t → t = s :=
    ⟨step_ne_next_of_halted hs, fun _ ht => ht.eq_of_halted hs⟩
  refine ⟨hstays, fun s u h => ?_⟩
  rw [exec_hlt] at h
  cases h
  exact ⟨rfl, hstays _ rfl⟩

/-- Settles O33: the halt and the advance past one byte. -/
theorem hltHaltsAndRecordsTheCause : Obligations.HltHaltsAndRecordsTheCause := by
  refine ⟨rfl, fun s => ?_, rfl⟩
  rw [exec_hlt, State.advance_eq]
  rfl

/-- Settles O34: the target is read after SP changed, so R7 gives the new SP and every other register its old value; the return
address is checked after the index. -/
theorem callPushesTheReturnAddressAndJumps : Obligations.CallPushesTheReturnAddressAndJumps := by
  refine ⟨fun ra => rfl, fun s i hfits => ?_, fun s i hpast => ?_, fun s ra ha => exec_bad_first_operand s rfl ha⟩
  · rw [exec_call, execCall_of_index s (regIndex_regByte i) hfits, State.pushAddr_eq, State.decSp_eq, State.reg_setReg]
    rfl
  · rw [exec_call, execCall_of_returnAddress_ge s (regIndex_regByte i) hpast]

/-- Settles O35: the jump to the byte at SP and the increment of SP. -/
theorem retPopsTheProgramCounter : Obligations.RetPopsTheProgramCounter := by
  refine ⟨rfl, fun s => ?_⟩
  rw [exec_ret, execRet_eq, State.incSp_eq]
  rfl

end Sys2Proof.Machine
end

section
/-! FL is written by CMP alone (44_ext_alu.md R171): of the completed instructions only a CMP's ALU answer is flags, and a raised
condition leaves FL as it was (60_exceptions.md R216). -/

namespace Sys2Proof.Machine

/-- An instruction whose ALU tag is CMP is a CMP. -/
theorem eq_cmp_of_mem_binaryRows {mk : Byte → Byte → Instr} (hm : (AluTag.cmp, mk) ∈ binaryRows) : mk = .cmp := by
  simpa [binaryRows] using hm

theorem cmp_notMem_unaryRows (mk : Byte → Instr) : (AluTag.cmp, mk) ∉ unaryRows := by
  simp [unaryRows]

theorem Done.fl_eq {s t : State} {i : Instr} (hd : Done s i t) (hi : ∀ ra rb, i ≠ .cmp ra rb) : t.fl = s.fl := by
  cases hd with
  | binary hm _ _ hr =>
    obtain ⟨rfl, -⟩ | ⟨-, v, rfl⟩ := alu_out hr
    · exact absurd (congrFun₂ (eq_cmp_of_mem_binaryRows hm) _ _) (hi _ _)
    · rfl
  | unary hm _ hr =>
    obtain ⟨rfl, -⟩ | ⟨-, v, rfl⟩ := alu_out hr
    · exact absurd hm (cmp_notMem_unaryRows _)
    · rfl
  | jump => split <;> rfl
  | _ => rfl

/-- Settles O10: every shape keeps FL unless its ALU answer is flags, which is CMP's; a raise keeps it, and a launch sets 0. -/
theorem onlyCmpWritesTheFlags : Obligations.OnlyCmpWritesTheFlags := by
  refine ⟨fun i s t h hi => ?_, fun l => rfl⟩
  obtain hdone | ⟨c, -, rfl⟩ := exec_cases h
  · exact hdone.fl_eq hi
  · exact s.raise_fl c _

end Sys2Proof.Machine
end

section
/-! The flag value of CMP (44_ext_alu.md R170), by the three ways two bytes compare. -/

namespace Sys2Proof.Machine

theorem cmpflags_of_lt {a b : Byte} (h : a.toNat < b.toNat) : cmpflags a b = 0b100 := by
  rw [cmpflags, if_pos h, if_neg h.not_gt, if_neg h.ne]
  rfl

theorem cmpflags_of_gt {a b : Byte} (h : a.toNat > b.toNat) : cmpflags a b = 0b010 := by
  rw [cmpflags, if_neg h.not_gt, if_pos h, if_neg h.ne']
  rfl

theorem cmpflags_of_eq {a b : Byte} (h : a.toNat = b.toNat) : cmpflags a b = 0b001 := by
  rw [cmpflags, if_neg h.not_lt, if_neg h.not_gt, if_pos h]
  rfl

theorem cmpflags_eq_ite (a b : Byte) :
    cmpflags a b = if a.toNat < b.toNat then 0b100 else if b.toNat < a.toNat then 0b010 else 0b001 := by
  split_ifs with hlt hgt
  · exact cmpflags_of_lt hlt
  · exact cmpflags_of_gt hgt
  · exact cmpflags_of_eq (le_antisymm (not_lt.1 hgt) (not_lt.1 hlt))

/-- Settles O37: each way of comparing has its flag, and any two bytes compare in one of the three. -/
theorem cmpflagsSetsExactlyOneFlag : Obligations.CmpflagsSetsExactlyOneFlag := by
  refine fun a b => ⟨cmpflags_of_lt, cmpflags_of_gt, cmpflags_of_eq, ?_⟩
  obtain hlt | heq | hgt := lt_trichotomy a.toNat b.toNat
  · exact .inr (.inr (cmpflags_of_lt hlt))
  · exact .inl (cmpflags_of_eq heq)
  · exact .inr (.inl (cmpflags_of_gt hgt))

end Sys2Proof.Machine
end

section
/-! The EXTENDED ALU instructions (44_ext_alu.md). A row of `binaryRows` or `unaryRows` fixes what `exec` does but for the ALU's
answer, so each instruction needs only that answer, here in the operations of bytes. -/

namespace Sys2Proof.Machine

/-! ### The ALU's answers as bytes -/

theorem alu_sub_byte (a b : Byte) : alu .extended .sub a b = .ok (.value (a - b)) := by
  rw [alu_of_supported rfl, aluApply, trunc8_sub]

theorem alu_inc_byte (a b : Byte) : alu .extended .inc a b = .ok (.value (a + 1)) := by
  rw [alu_of_supported rfl, aluApply, trunc8_add_one]

theorem alu_dec_byte (a b : Byte) : alu .extended .dec a b = .ok (.value (a - 1)) := by
  rw [alu_of_supported rfl, aluApply, trunc8_sub_one]

theorem alu_not_byte (a b : Byte) : alu .extended .not a b = .ok (.value (~~~a)) := by
  rw [alu_of_supported rfl, aluApply, trunc8_complement]

theorem ofNat_mul_two_pow (a : Byte) (n : Nat) : BitVec.ofNat 8 (a.toNat * 2 ^ n % 256) = a <<< n := by
  apply BitVec.eq_of_toNat_eq
  simp [Nat.shiftLeft_eq]

theorem ofNat_div_two_pow (a : Byte) (n : Nat) : BitVec.ofNat 8 (a.toNat / 2 ^ n) = a >>> n := by
  apply BitVec.eq_of_toNat_eq
  rw [BitVec.toNat_ofNat, BitVec.toNat_ushiftRight, Nat.shiftRight_eq_div_pow,
    Nat.mod_eq_of_lt ((Nat.div_le_self _ _).trans_lt a.isLt)]

theorem alu_shl_byte (a b : Byte) :
    alu .extended .shl a b = .ok (.value (if 8 ≤ b.toNat then 0 else a <<< b.toNat)) := by
  rw [alu_shl, ofNat_mul_two_pow]

theorem alu_shr_byte (a b : Byte) :
    alu .extended .shr a b = .ok (.value (if 8 ≤ b.toNat then 0 else a >>> b.toNat)) := by
  rw [alu_shr, ofNat_div_two_pow]

theorem alu_cmp (a b : Byte) : alu .extended .cmp a b =
    .ok (.flags (if a.toNat < b.toNat then 0b100 else if b.toNat < a.toNat then 0b010 else 0b001)) := by
  rw [alu_of_supported rfl, aluApply, cmpflags_eq_ite]

theorem alu_div_zero {b : Byte} (a : Byte) (hb : b = 0) : alu .extended .div a b = .error .divideByZero := by
  rw [alu_of_supported rfl, aluApply, if_pos (by rw [hb]; rfl)]

theorem alu_mod_zero {b : Byte} (a : Byte) (hb : b = 0) : alu .extended .mod a b = .error .divideByZero := by
  rw [alu_of_supported rfl, aluApply, if_pos (by rw [hb]; rfl)]

/-! ### The next state of a row, by the ALU's answer -/

theorem exec_binary {g : AluTag} {mk : Byte → Byte → Instr} (hm : (g, mk) ∈ binaryRows) (ra rb : Byte) (s : State) :
    exec (mk ra rb) s = settle (mk ra rb).kind s (aluBinary g ra rb s) := by
  fin_cases hm <;> rfl

theorem exec_unary {g : AluTag} {mk : Byte → Instr} (hm : (g, mk) ∈ unaryRows) (ra : Byte) (s : State) :
    exec (mk ra) s = settle (mk ra).kind s (aluUnary g ra s) := by
  fin_cases hm <;> rfl

section
variable {g : AluTag} {s : State} {i j : Fin 8}

theorem exec_binary_value {mk : Byte → Byte → Instr} {v : Byte} (hs : s.opset = .extended)
    (h : alu .extended g (s.reg i) (s.reg j) = .ok (.value v)) (hm : (g, mk) ∈ binaryRows) :
    exec (mk (regByte i) (regByte j)) s = .next { s with regs := s.regs.set i v, pc := s.pc + 3 } := by
  rw [exec_binary hm, aluBinary_value (hs ▸ h), settle_ok]

theorem exec_binary_flags {mk : Byte → Byte → Instr} {fl : Byte} (hs : s.opset = .extended)
    (h : alu .extended g (s.reg i) (s.reg j) = .ok (.flags fl)) (hm : (g, mk) ∈ binaryRows) :
    exec (mk (regByte i) (regByte j)) s = .next { s with fl := fl, pc := s.pc + 3 } := by
  have hok : aluBinary g (regByte i) (regByte j) s = .ok ((s.setFl fl).advance 2) := by
    simp [aluBinary, hs, h]
  rw [exec_binary hm, hok, settle_ok, State.advance_eq]
  rfl

theorem exec_binary_error {mk : Byte → Byte → Instr} {c : Condition} (hs : s.opset = .extended)
    (h : alu .extended g (s.reg i) (s.reg j) = .error c) (hm : (g, mk) ∈ binaryRows) :
    exec (mk (regByte i) (regByte j)) s =
      .next (s.raise c (some (mk (regByte i) (regByte j)).kind.opcode)) := by
  have herror : aluBinary g (regByte i) (regByte j) s = .error c := by
    simp [aluBinary, hs, h]
  rw [exec_binary hm, herror, settle_error]

theorem exec_unary_value {mk : Byte → Instr} {v : Byte} (hs : s.opset = .extended)
    (h : alu .extended g (s.reg i) 0 = .ok (.value v)) (hm : (g, mk) ∈ unaryRows) :
    exec (mk (regByte i)) s = .next { s with regs := s.regs.set i v, pc := s.pc + 2 } := by
  have hok : aluUnary g (regByte i) s = .ok ((s.setReg i v).advance 1) := by
    rw [aluUnary, regIndex_regByte, handler_bind_ok, hs, h, handler_bind_ok, State.writeAlu_value, handler_pure]
  rw [exec_unary hm, hok, settle_ok, State.advance_eq]
  rfl

end

/-! ### The instructions

The raising forms are those of any instruction whose first or second operand names no register. -/

/-- Settles O38: the ALU's SUB in its row, and the two raising forms. -/
theorem subSubtractsModulo256 : Obligations.SubSubtractsModulo256 := by
  refine ⟨fun ra rb => rfl, fun s i j hs => ?_, fun s ra rb ha => exec_bad_first_operand s rfl ha,
    fun s ra rb ha hb => exec_bad_second_operand s rfl ha hb⟩
  exact exec_binary_value hs (alu_sub_byte _ _) (by simp [binaryRows])

/-- Settles O39: the ALU answers a value for a nonzero divisor and DivideByZero for zero, after both index checks. -/
theorem divAndModDivideUnsignedOrRaise : Obligations.DivAndModDivideUnsignedOrRaise := by
  have hdiv : (AluTag.div, Instr.div) ∈ binaryRows := by simp [binaryRows]
  have hmod : (AluTag.mod, Instr.mod) ∈ binaryRows := by simp [binaryRows]
  refine ⟨fun ra rb => ⟨rfl, rfl⟩, fun s i j hs hne => ?_, fun s i j hs hzero => ?_,
    fun s ra rb ha => ⟨exec_bad_first_operand s rfl ha, exec_bad_first_operand s rfl ha⟩,
    fun s ra rb ha hb => ⟨exec_bad_second_operand s rfl ha hb, exec_bad_second_operand s rfl ha hb⟩⟩
  · exact ⟨exec_binary_value hs (alu_div _ hne) hdiv, exec_binary_value hs (alu_mod _ hne) hmod⟩
  · exact ⟨exec_binary_error hs (alu_div_zero _ hzero) hdiv, exec_binary_error hs (alu_mod_zero _ hzero) hmod⟩

/-- Settles O40: the ALU's INC and DEC in the one-register rows, and the raising form. -/
theorem incAndDecWrapModulo256 : Obligations.IncAndDecWrapModulo256 := by
  refine ⟨fun ra => ⟨rfl, rfl⟩, fun s i hs => ⟨?_, ?_⟩,
    fun s ra ha => ⟨exec_bad_first_operand s rfl ha, exec_bad_first_operand s rfl ha⟩⟩
  · exact exec_unary_value hs (alu_inc_byte _ _) (by simp [unaryRows])
  · exact exec_unary_value hs (alu_dec_byte _ _) (by simp [unaryRows])

/-- Settles O41: CMP is the row whose ALU answer is flags, the value of O37. -/
theorem cmpWritesTheFlagsAndNoRegister : Obligations.CmpWritesTheFlagsAndNoRegister := by
  refine ⟨fun ra rb => rfl, fun s i j hs => ?_, fun s ra rb ha => exec_bad_first_operand s rfl ha,
    fun s ra rb ha hb => exec_bad_second_operand s rfl ha hb⟩
  exact exec_binary_flags hs (alu_cmp _ _) (by simp [binaryRows])

/-- Settles O42: the ALU's bitwise operations, in the table as they stand, in their rows, and the two raising forms. -/
theorem andOrXorAreBitwise : Obligations.AndOrXorAreBitwise := by
  refine ⟨fun ra rb => ⟨rfl, rfl, rfl⟩, fun s i j hs => ⟨?_, ?_, ?_⟩,
    fun s ra rb ha =>
      ⟨exec_bad_first_operand s rfl ha, exec_bad_first_operand s rfl ha, exec_bad_first_operand s rfl ha⟩,
    fun s ra rb ha hb =>
      ⟨exec_bad_second_operand s rfl ha hb, exec_bad_second_operand s rfl ha hb, exec_bad_second_operand s rfl ha hb⟩⟩
  · exact exec_binary_value (g := .and) hs rfl (by simp [binaryRows])
  · exact exec_binary_value (g := .or) hs rfl (by simp [binaryRows])
  · exact exec_binary_value (g := .xor) hs rfl (by simp [binaryRows])

/-- Settles O43: the ALU's complement in the one-register row, and the raising form. -/
theorem notFlipsEveryBit : Obligations.NotFlipsEveryBit := by
  refine ⟨fun ra => rfl, fun s i hs => ?_, fun s ra ha => exec_bad_first_operand s rfl ha⟩
  exact exec_unary_value hs (alu_not_byte _ _) (by simp [unaryRows])

/-- Settles O44: the ALU's shifts by the whole byte in their rows, and the two raising forms. -/
theorem shiftsUseTheWholeAmount : Obligations.ShiftsUseTheWholeAmount := by
  refine ⟨fun ra rb => ⟨rfl, rfl⟩, fun s i j hs => ⟨?_, ?_⟩,
    fun s ra rb ha => ⟨exec_bad_first_operand s rfl ha, exec_bad_first_operand s rfl ha⟩,
    fun s ra rb ha hb => ⟨exec_bad_second_operand s rfl ha hb, exec_bad_second_operand s rfl ha hb⟩⟩
  · exact exec_binary_value hs (alu_shl_byte _ _) (by simp [binaryRows])
  · exact exec_binary_value hs (alu_shr_byte _ _) (by simp [binaryRows])

end Sys2Proof.Machine
end

section
/-! The EXTENDED jumps (45_ext_control_memory.md R190 to R197). A row of `jumpRows` fixes what `exec` does but for its condition on
FL, so each jump needs only the bits its condition reads. -/

namespace Sys2Proof.Machine

theorem exec_jump {mk : Byte → Instr} {cond : Byte → Bool} (hm : (mk, cond) ∈ jumpRows) (ra : Byte) (s : State) :
    exec (mk ra) s = settle (mk ra).kind s (jumpIf (cond s.fl) ra s) := by
  fin_cases hm <;> rfl

/-! ### The next state of a row, by its condition -/

section
variable {mk : Byte → Instr} {cond : Byte → Bool} {s : State}

theorem exec_jump_taken (i : Fin 8) (h : cond s.fl = true) (hm : (mk, cond) ∈ jumpRows) :
    exec (mk (regByte i)) s = .next { s with pc := (s.reg i).setWidth 9 } := by
  rw [exec_jump hm, jumpIf, regIndex_regByte, handler_bind_ok, if_pos h, handler_pure, settle_ok]
  rfl

theorem exec_jump_not_taken (i : Fin 8) (h : ¬ cond s.fl = true) (hm : (mk, cond) ∈ jumpRows) :
    exec (mk (regByte i)) s = .next { s with pc := s.pc + 2 } := by
  rw [exec_jump hm, jumpIf, regIndex_regByte, handler_bind_ok, if_neg h, handler_pure, settle_ok, State.advance_eq]
  rfl

/-- A jump whose condition says `p` of FL. -/
theorem exec_jump_of_iff {p : Prop} [Decidable p] (i : Fin 8) (h : cond s.fl = true ↔ p) (hm : (mk, cond) ∈ jumpRows) :
    exec (mk (regByte i)) s = .next { s with pc := if p then (s.reg i).setWidth 9 else s.pc + 2 } := by
  split_ifs with hp
  · exact exec_jump_taken i (h.2 hp) hm
  · exact exec_jump_not_taken i (mt h.1 hp) hm

end

/-! ### The bits of FL each condition reads -/

theorem condEq_iff (fl : Byte) : condEq fl = true ↔ fl.getLsbD 0 = true := Iff.rfl

theorem condNe_iff (fl : Byte) : condNe fl = true ↔ fl.getLsbD 0 = false := by
  rw [condNe, flagE, Bool.not_eq_true']

theorem condGt_iff (fl : Byte) : condGt fl = true ↔ fl.getLsbD 1 = true := Iff.rfl

theorem condLt_iff (fl : Byte) : condLt fl = true ↔ fl.getLsbD 2 = true := Iff.rfl

theorem condLe_iff (fl : Byte) : condLe fl = true ↔ fl.getLsbD 2 = true ∨ fl.getLsbD 0 = true := by
  rw [condLe, flagL, flagE, Bool.or_eq_true]

theorem condGe_iff (fl : Byte) : condGe fl = true ↔ fl.getLsbD 1 = true ∨ fl.getLsbD 0 = true := by
  rw [condGe, flagG, flagE, Bool.or_eq_true]

/-! ### The jumps -/

/-- Settles O46: JMP is the row whose condition always holds; the raising form is that of any bad first operand. -/
theorem jmpGoesToTheRegister : Obligations.JmpGoesToTheRegister := by
  refine ⟨fun ra => rfl, fun s i => ?_, fun s ra ha => exec_bad_first_operand s rfl ha⟩
  exact exec_jump_taken (cond := fun _ => true) i rfl (by simp [jumpRows])

/-- Settles O47: each jump is a row of `jumpRows`, by the bits of FL its condition reads; a bad index raises whatever FL holds. -/
theorem conditionalJumpsFollowTheirFlags : Obligations.ConditionalJumpsFollowTheirFlags := by
  refine ⟨fun ra => ⟨rfl, rfl, rfl, rfl, rfl, rfl⟩, fun s i => ⟨?_, ?_, ?_, ?_, ?_, ?_⟩,
    fun s ra ha =>
      ⟨exec_bad_first_operand s rfl ha, exec_bad_first_operand s rfl ha, exec_bad_first_operand s rfl ha,
        exec_bad_first_operand s rfl ha, exec_bad_first_operand s rfl ha, exec_bad_first_operand s rfl ha⟩⟩
  · exact exec_jump_of_iff i (condEq_iff _) (by simp [jumpRows])
  · exact exec_jump_of_iff i (condNe_iff _) (by simp [jumpRows])
  · exact exec_jump_of_iff i (condGt_iff _) (by simp [jumpRows])
  · exact exec_jump_of_iff i (condLt_iff _) (by simp [jumpRows])
  · exact exec_jump_of_iff i (condLe_iff _) (by simp [jumpRows])
  · exact exec_jump_of_iff i (condGe_iff _) (by simp [jumpRows])

end Sys2Proof.Machine
end

section
/-! The EXTENDED memory instructions (45_ext_control_memory.md R200, R201): LD and ST on registers. An address is a register's byte,
so the bound check of the access always passes. -/

namespace Sys2Proof.Machine

/-- LD on two registers: what it answers. -/
theorem execLd_of_index {ra rb : Byte} {i j : Fin 8} (s : State) (hi : regIndex ra = .ok i) (hj : regIndex rb = .ok j) :
    execLd ra rb s = .next ((s.setReg i (s.mem.get (s.reg j).toNat)).advance 2) := by
  rw [execLd, hi, handler_bind_ok, hj, handler_bind_ok, State.addrIn, memRead_byte, handler_bind_ok, handler_pure, settle_ok]

/-- ST on two registers: what it answers. -/
theorem execSt_of_index {ra rb : Byte} {i j : Fin 8} (s : State) (hi : regIndex ra = .ok i) (hj : regIndex rb = .ok j) :
    execSt ra rb s = .next ({ s with mem := s.mem.set (s.reg i).toNat (s.reg j) }.advance 2) := by
  rw [execSt, hi, handler_bind_ok, hj, handler_bind_ok, State.addrIn, memWrite_byte, handler_bind_ok, handler_pure, settle_ok]

theorem exec_ld (ra rb : Byte) (s : State) : exec (.ld ra rb) s = execLd ra rb s := rfl

theorem exec_st (ra rb : Byte) (s : State) : exec (.st ra rb) s = execSt ra rb s := rfl

/-- Settles O48: the read at the second register comes before the write of the first, so LD Rn, Rn reads at the old value. -/
theorem ldLoadsTheByteTheRegisterPointsAt : Obligations.LdLoadsTheByteTheRegisterPointsAt := by
  refine ⟨fun ra rb => rfl, fun s i j => ?_, fun s ra rb ha => exec_bad_first_operand s rfl ha,
    fun s ra rb ha hb => exec_bad_second_operand s rfl ha hb⟩
  rw [exec_ld, execLd_of_index s (regIndex_regByte i) (regIndex_regByte j), State.advance_eq]
  rfl

/-- Settles O49: the store at the address in the first register and the advance past three bytes, and the two raising forms. -/
theorem stStoresToTheAddressInTheFirstRegister : Obligations.StStoresToTheAddressInTheFirstRegister := by
  refine ⟨fun ra rb => rfl, fun s i j => ?_, fun s ra rb ha => exec_bad_first_operand s rfl ha,
    fun s ra rb ha hb => exec_bad_second_operand s rfl ha hb⟩
  rw [exec_st, execSt_of_index s (regIndex_regByte i) (regIndex_regByte j), State.advance_eq]
  rfl

end Sys2Proof.Machine
end

section
/-! The one effect of a condition (60_exceptions.md R214, R216): whatever raises it, the state is `State.raise`'s. -/

namespace Sys2Proof.Machine

/-- Everything a step of a running core can do: an instruction of the profile completes, all its bytes inside memory, or a
condition is raised, by the fetch or by the instruction. -/
theorem step_completes_or_raises {s t : State} (h : step s = .next t) :
    s.running = true ∧
    ((∃ i, Done s i t ∧ i.inProfile s.opset = true ∧ s.pc.toNat + i.operands.length < 256) ∨
     (∃ f, FetchFails s f ∧ t = s.raise f.cond f.opcode) ∨
     (∃ i c, Raises s i c ∧ i.inProfile s.opset = true ∧ s.pc.toNat + i.operands.length < 256 ∧
       t = s.raise c (some i.kind.opcode))) := by
  obtain ⟨hrun, hfail | ⟨i, -, hexec, hprofile, -, hinside⟩⟩ := step_cases h
  · exact ⟨hrun, .inr (.inl hfail)⟩
  · rw [operandCount_opcode, ← i.operands_length] at hinside
    obtain hdone | ⟨c, hc, ht⟩ := exec_cases hexec
    · exact ⟨hrun, .inl ⟨i, hdone, hprofile, hinside⟩⟩
    · exact ⟨hrun, .inr (.inr ⟨i, c, hc, hprofile, hinside, ht⟩)⟩

/-- A completed instruction that leaves the core halted is HLT. -/
theorem Done.cause_eq_halt {s t : State} {i : Instr} (hd : Done s i t) (hrun : s.running = true)
    (hhalted : t.running = false) : t.status.cause = .halt := by
  obtain ⟨-, hrunning, -⟩ | ⟨-, -, hstatus⟩ := hd.running_or_halt
  · simp [hrunning, hrun] at hhalted
  · rw [hstatus]

/-- What raising a condition keeps, and the address it records. -/
theorem State.raise_precise (s : State) (c : Condition) (op : Option Byte) :
    s.raise c op = { s with running := false, status := (s.raise c op).status } ∧ (s.raise c op).status.addr = s.pc :=
  ⟨rfl, Condition.record_addr c s.pc op s.status⟩

/-- Settles O25: one form for each condition, and the codes of the causes. -/
theorem raisingWritesRunningAndStatusOnly : Obligations.RaisingWritesRunningAndStatusOnly :=
  fun _ _ => ⟨rfl, rfl, rfl, fun _ _ => rfl, rfl, rfl, rfl, rfl⟩

/-- Settles O13: of the steps that stop the core, the completed ones record HALT and the others are a raise. -/
theorem conditionsArePrecise : Obligations.ConditionsArePrecise := by
  intro s t h hhalted hcause
  obtain ⟨hrun, ⟨i, hdone, -⟩ | ⟨f, -, rfl⟩ | ⟨i, c, -, -, -, rfl⟩⟩ := step_completes_or_raises h
  · exact absurd (hdone.cause_eq_halt hrun hhalted) hcause
  · exact s.raise_precise f.cond f.opcode
  · exact s.raise_precise c (some i.kind.opcode)

end Sys2Proof.Machine
end

section
/-! Every step keeps the invariant. A completed instruction keeps each field of it, by the shapes of `Done`; a raised condition
keeps all but STATUS, and each way to raise leaves a legal STATUS. -/

namespace Sys2Proof.Machine

/-! ### pc stays in 0..256 (10_state.md R26) -/

/-- The advance past an instruction whose bytes lie inside memory. -/
theorem State.advance_pc_le {s : State} {n : Nat} (h : s.pc.toNat + n < 256) : (s.advance n).pc.toNat ≤ 256 := by
  rw [State.advance_pc, BitVec.toNat_ofNat]
  omega

theorem State.jump_pc_le (s : State) (b : Byte) : (s.jump b).pc.toNat ≤ 256 := by
  rw [State.jump_pc, byte_setWidth_toNat]
  exact b.isLt.le

theorem operands_of_mem_binaryRows {g : AluTag} {mk : Byte → Byte → Instr} (hm : (g, mk) ∈ binaryRows) (ra rb : Byte) :
    (mk ra rb).operands = [ra, rb] := by
  fin_cases hm <;> rfl

theorem operands_of_mem_unaryRows {g : AluTag} {mk : Byte → Instr} (hm : (g, mk) ∈ unaryRows) (ra : Byte) :
    (mk ra).operands = [ra] := by
  fin_cases hm <;> rfl

theorem operands_of_mem_jumpRows {mk : Byte → Instr} {cond : Byte → Bool} (hm : (mk, cond) ∈ jumpRows) (ra : Byte) :
    (mk ra).operands = [ra] := by
  fin_cases hm <;> rfl

theorem Done.pc_le {s t : State} {i : Instr} (hd : Done s i t) (h : s.pc.toNat + i.operands.length < 256) :
    t.pc.toNat ≤ 256 := by
  cases hd with
  | ret => exact s.jump_pc_le _
  | call => exact State.jump_pc_le _ _
  | jump hm =>
    rw [operands_of_mem_jumpRows hm] at h
    split
    · exact State.jump_pc_le _ _
    · exact State.advance_pc_le h
  | binary hm =>
    rw [operands_of_mem_binaryRows hm] at h
    exact State.advance_pc_le (by simpa using h)
  | unary hm =>
    rw [operands_of_mem_unaryRows hm] at h
    exact State.advance_pc_le (by simpa using h)
  | hlt | push | pop | prn | ldi | ld | st => exact State.advance_pc_le h

/-! ### FL and the profile -/

theorem Done.opset_eq {s t : State} {i : Instr} (hd : Done s i t) : t.opset = s.opset := by
  cases hd with
  | binary | unary => simp
  | jump => split <;> rfl
  | _ => rfl

theorem legalFlags_cmpflags (a b : Byte) : legalFlags (cmpflags a b) = true := by
  obtain ⟨-, -, -, h | h | h⟩ := cmpflagsSetsExactlyOneFlag a b <;> rw [h] <;> decide

/-- A completed instruction keeps FL or is a CMP that writes its comparison there. -/
theorem Done.fl_eq_or_cmp {s t : State} {i : Instr} (hd : Done s i t) :
    t.fl = s.fl ∨ i.kind = .cmp ∧ ∃ a b, t.fl = cmpflags a b := by
  cases hd with
  | binary hm _ _ hr =>
    obtain ⟨rfl, rfl⟩ | ⟨-, v, rfl⟩ := alu_out hr
    · obtain rfl := eq_cmp_of_mem_binaryRows hm
      exact .inr ⟨rfl, _, _, rfl⟩
    · exact .inl rfl
  | unary hm _ hr =>
    obtain ⟨rfl, -⟩ | ⟨-, v, rfl⟩ := alu_out hr
    · exact absurd hm (cmp_notMem_unaryRows _)
    · exact .inl rfl
  | jump => split <;> exact .inl rfl
  | _ => exact .inl rfl

theorem Done.fl_legal {s t : State} {i : Instr} (hd : Done s i t) (h : legalFlags s.fl = true) :
    legalFlags t.fl = true := by
  obtain hfl | ⟨-, a, b, hfl⟩ := hd.fl_eq_or_cmp
  · rwa [hfl]
  · rw [hfl, legalFlags_cmpflags]

/-- CMP is not in BASE, so an instruction of BASE keeps FL. -/
theorem Done.fl_eq_of_base {s t : State} {i : Instr} (hd : Done s i t) (hbase : i.inProfile .base = true) :
    t.fl = s.fl := by
  obtain hfl | ⟨hcmp, -⟩ := hd.fl_eq_or_cmp
  · exact hfl
  · rw [Instr.inProfile, hcmp] at hbase
    exact absurd hbase (by decide)

/-! ### STATUS after a raise (60_exceptions.md R210, R211, R214) -/

/-- An out-of-range memory address, when it is 256: only the fetch of the opcode there records no opcode. -/
theorem Status.legal_memory {o : OpSet} {addr : PcWord} {op : Option Byte} {st : Status} (haddr : addr.toNat ≤ 256)
    (hop : op = none ↔ addr.toNat = 256) :
    ((Condition.addressOutOfRange .memory 256).record addr op st).legal o = true := by
  simp [Condition.record, Condition.cause, Status.legal, haddr, hop]

/-- An out-of-range register index, which is a byte. -/
theorem Status.legal_register {o : OpSet} {addr : PcWord} {op b : Byte} {st : Status} (haddr : addr.toNat < 256)
    (hb : 8 ≤ b.toNat) : ((Condition.addressOutOfRange .register b.toNat).record addr (some op) st).legal o = true := by
  have hlt := b.isLt
  have hmod : b.toNat % 512 = b.toNat := Nat.mod_eq_of_lt (by omega)
  simp [Condition.record, Condition.cause, Status.legal, haddr, hb, hlt, hmod]

theorem FetchFails.record_legal {s : State} {f : FetchFailure} (hf : FetchFails s f) (hpc : s.pc.toNat ≤ 256) :
    (f.cond.record s.pc f.opcode s.status).legal s.opset = true := by
  cases hf with
  | opcode hpast =>
    have heq : s.pc.toNat = 256 := le_antisymm hpc hpast
    rw [heq]
    exact Status.legal_memory hpc (by simp [heq])
  | operand hinside _ => exact Status.legal_memory hpc (by simp [hinside.ne])
  | unknown hinside hnone =>
    have hlt : s.pc.toNat < 256 := by omega
    simp [Condition.record, Condition.cause, Status.legal, hlt, hnone]

/-- CALL's own two bytes lie inside memory, so a return address that does not fit is exactly 256 (log entry 15). -/
theorem Raises.record_legal {s : State} {i : Instr} {c : Condition} (hc : Raises s i c)
    (hprofile : i.inProfile s.opset = true) (hinside : s.pc.toNat + i.operands.length < 256) :
    (c.record s.pc (some i.kind.opcode) s.status).legal s.opset = true := by
  have hlt : s.pc.toNat < 256 := by omega
  cases hc with
  | index _ hb => exact Status.legal_register hlt hb
  | @returnAddress ra hpast =>
    have hcount : (Instr.call ra).operands.length = 1 := rfl
    have heq : s.pc.toNat + 2 = 256 := by omega
    rw [heq]
    exact Status.legal_memory hlt.le (by simp [hlt.ne])
  | divideByZero hkind hext =>
    obtain hkind | hkind := hkind <;>
      simp [Condition.record, Condition.cause, Status.legal, hlt, hext, hkind]
  | unsupported hout => exact absurd hprofile (by simp [hout])

/-! ### The invariant -/

/-- A raised condition keeps the invariant when the STATUS it leaves is legal: it writes nothing else but `running`. -/
theorem State.Inv.raise {s : State} {c : Condition} {op : Option Byte} (hs : s.Inv)
    (hlegal : (c.record s.pc op s.status).legal s.opset = true) : (s.raise c op).Inv where
  mem_wf := hs.mem_wf
  pc_le := hs.pc_le
  fl_legal := hs.fl_legal
  fl_base := hs.fl_base
  running_iff := by simp [c.cause_ne.1]
  status_legal := hlegal

/-- A completed instruction leaves `running` and STATUS alone, or is HLT and records its own cause, address and opcode. -/
theorem Done.running_iff_and_status_legal {s t : State} {i : Instr} (hd : Done s i t) (hs : s.Inv)
    (hlt : s.pc.toNat < 256) :
    (t.running = true ↔ t.status.cause = .none) ∧ t.status.legal t.opset = true := by
  rw [hd.opset_eq]
  obtain ⟨-, hrunning, hstatus⟩ | ⟨-, hrunning, hstatus⟩ := hd.running_or_halt
  · rw [hrunning, hstatus]
    exact ⟨hs.running_iff, hs.status_legal⟩
  · rw [hrunning, hstatus]
    simp [Status.legal, hlt, Kind.opcode]

theorem State.Inv.done {s t : State} {i : Instr} (hs : s.Inv) (hd : Done s i t) (hprofile : i.inProfile s.opset = true)
    (hinside : s.pc.toNat + i.operands.length < 256) : t.Inv := by
  obtain ⟨hrunning, hstatus⟩ := hd.running_iff_and_status_legal hs (by omega)
  refine ⟨hd.mem_wf hs.mem_wf, hd.pc_le hinside, hd.fl_legal hs.fl_legal, fun hbase => ?_, hrunning, hstatus⟩
  rw [hd.opset_eq] at hbase
  rw [hd.fl_eq_of_base (hbase ▸ hprofile), hs.fl_base hbase]

/-- Settles O6: a completed instruction keeps every field of the invariant, and each way to raise leaves a legal STATUS. -/
theorem everyStepKeepsTheInvariant : Obligations.EveryStepKeepsTheInvariant := by
  intro s t hs h
  obtain ⟨-, ⟨i, hdone, hprofile, hinside⟩ | ⟨f, hf, rfl⟩ | ⟨i, c, hc, hprofile, hinside, rfl⟩⟩ :=
    step_completes_or_raises h
  · exact hs.done hdone hprofile hinside
  · exact hs.raise (hf.record_legal hs.pc_le)
  · exact hs.raise (hc.record_legal hprofile hinside)

end Sys2Proof.Machine
end

section
/-! The state after a launch (70_reset_and_hazards.md R240) and the image a host loads before it (R241, R251). -/

namespace Sys2Proof.Machine

/-- 10_state.md R24: R0 to R6 start as `R_INIT` says. -/
theorem State.launch_reg_castSucc (l : Launch) (i : Fin 7) : (State.launch l).reg i.castSucc = l.rInit[i] := by
  match i with
  | 0 | 1 | 2 | 3 | 4 | 5 | 6 => rfl

/-- The start memory reads as the image, byte for byte. -/
theorem State.launch_mem_get (l : Launch) (a : Fin 256) : (State.launch l).mem.get a.val = l.memInit[a] := by
  have hread : (State.launch l).mem.get (0 + a.val) = l.memInit.toList.getD a.val Memory.unlisted :=
    Memory.get_ofBytes 0 a.val l.memInit.toList
  simpa using hread

/-- Settles O1: R0 to R6 and memory are read out of the launch parameters, every other item stands in `State.launch` itself. -/
theorem launchSetsEveryItemOfTheResetTable : Obligations.LaunchSetsEveryItemOfTheResetTable := fun l =>
  ⟨rfl, State.launch_reg_castSucc l, rfl, rfl, rfl, State.launch_mem_get l, rfl, rfl, rfl⟩

theorem loadImage_of_gt {image : List Byte} (before : Vector Byte 256) (h : 256 < image.length) :
    loadImage image before = none :=
  if_neg (Nat.not_le.2 h)

theorem loadImage_of_le {image : List Byte} (before : Vector Byte 256) (h : image.length ≤ 256) :
    loadImage image before = some (Vector.ofFn fun a => image.getD a.val before[a]) :=
  if_pos h

/-- Settles O5: the loaded memory takes `image.getD` at each address, which is the image's byte inside it and the earlier byte
past its end. -/
theorem loadedImageStandsFromAddressZeroOrIsRefused : Obligations.LoadedImageStandsFromAddressZeroOrIsRefused := by
  refine fun image before => ⟨loadImage_of_gt before, fun hfits => ⟨_, loadImage_of_le before hfits, fun a => ?_⟩⟩
  by_cases ha : a.val < image.length <;> simp [ha]

end Sys2Proof.Machine
end

section
/-! Decoding and encoding are inverse (30_encoding.md, sections 1 and 2): the operand count the dispatcher takes from the opcode is
the number of operand bytes, and the handler map's row is the opcode's own kind. -/

namespace Sys2Proof

/-- What the decoder answers for an opcode with a handler, enough bytes following it. -/
theorem decode_of_lookup {o : OpSet} {op : Byte} {k : Kind} {bytes : List Byte} (hlookup : lookup o op = some k)
    (hlen : operandCount op ≤ bytes.length) :
    decode o (op :: bytes) = .ok (k.build (bytes.getD 0 0) (bytes.getD 1 0), bytes.drop (operandCount op)) := by
  rw [decode, if_neg (Nat.not_lt.2 hlen), hlookup]

/-- Whenever the decoder answers an instruction, the opcode has a handler and its operand bytes are there. -/
theorem decode_eq_ok {o : OpSet} {bytes rest : List Byte} {i : Instr} (h : decode o bytes = .ok (i, rest)) :
    ∃ op k tail, bytes = op :: tail ∧ lookup o op = some k ∧ operandCount op ≤ tail.length ∧
      i = k.build (tail.getD 0 0) (tail.getD 1 0) ∧ rest = tail.drop (operandCount op) := by
  cases bytes with
  | nil => cases h
  | cons op tail =>
    rw [decode] at h
    split at h
    · cases h
    · next hlen =>
      cases hlookup : lookup o op with
      | none => rw [hlookup] at h; cases h
      | some k =>
        rw [hlookup] at h
        cases h
        exact ⟨op, k, tail, rfl, hlookup, Nat.not_lt.1 hlen, rfl, rfl⟩

/-- The operands of an instruction built from the head of a list of bytes are the first bytes of that list. -/
theorem Kind.operands_build_getD (k : Kind) (bytes : List Byte) (hlen : k.format.operandCount ≤ bytes.length) :
    (k.build (bytes.getD 0 0) (bytes.getD 1 0)).operands = bytes.take k.format.operandCount := by
  rw [k.operands_build]
  obtain hf | hf | hf : k.format.operandCount = 0 ∨ k.format.operandCount = 1 ∨ k.format.operandCount = 2 := by
    cases k.format <;> decide
  all_goals rw [hf] at hlen ⊢
  · rfl
  · match bytes with
    | _ :: _ => rfl
  · match bytes with
    | _ :: _ :: _ => rfl

/-- Settles O18: the opcode's row is the instruction's kind, which rebuilds it from its operand bytes. -/
theorem decodeOfEncodeGivesTheInstruction : Obligations.DecodeOfEncodeGivesTheInstruction := by
  intro o i rest hprofile
  have hcount : operandCount i.kind.opcode = i.operands.length := by rw [operandCount_opcode, i.operands_length]
  rw [encode, List.cons_append, decode_of_lookup (lookup_opcode hprofile) (by simp [hcount]), i.build_operands, hcount,
    List.drop_left]

/-- Settles O19: the bytes split at the operand count into the built instruction's operands and the rest. -/
theorem decodedBytesAreTheEncodingAndTheRest : Obligations.DecodedBytesAreTheEncodingAndTheRest := by
  intro o bytes rest i h
  obtain ⟨op, k, tail, rfl, hlookup, hlen, rfl, rfl⟩ := decode_eq_ok h
  obtain ⟨rfl, hprofile⟩ := lookup_eq_some.1 hlookup
  rw [operandCount_opcode] at hlen ⊢
  refine ⟨?_, by rwa [Instr.inProfile, Kind.kind_build]⟩
  rw [encode, Kind.kind_build, k.operands_build_getD tail hlen, List.cons_append, List.take_append_drop]

/-- Settles O21: the decoded words are the encodings of their instructions, and the two refused opcodes have no handler. -/
theorem sampleWordsDecodeToTheirInstructions : Obligations.SampleWordsDecodeToTheirInstructions := by
  have hdecode := decodeOfEncodeGivesTheInstruction
  exact ⟨hdecode .base .hlt [] rfl, hdecode .base (.ldi 3 255) [] rfl, hdecode .base (.add 0 1) [] rfl,
    hdecode .base (.call 1) [] rfl, hdecode .extended (.sub 0 1) [] rfl, hdecode .extended (.jne 2) [] rfl,
    hdecode .extended (.st 3 9) [] rfl, rfl, rfl⟩

end Sys2Proof
end

section
/-! BASE does not depend on FL (10_state.md, section 3): the fetch reads memory, pc and the profile alone, and the handler of each
instruction of BASE answers the same from a state with another FL, but for that FL. -/

namespace Sys2Proof.Machine

/-! ### The fetch -/

theorem readOperands_setFl (s : State) (f : Byte) (a n : Nat) : readOperands (s.setFl f) a n = readOperands s a n := by
  induction n generalizing a with
  | zero => rfl
  | succ n ih =>
    have hread : memRead (s.setFl f) a = memRead s a := rfl
    rw [readOperands, readOperands, hread, ih]

theorem fetchInstr_setFl (s : State) (f : Byte) : fetchInstr (s.setFl f) = fetchInstr s := by
  have hread : memRead (s.setFl f) s.pc.toNat = memRead s s.pc.toNat := rfl
  simp only [fetchInstr, fetchBytes, State.setFl_pc, State.setFl_opset, hread, readOperands_setFl]

/-! ### The handlers of BASE -/

/-- Two handlers that answer alike but for FL, whose value is `f` in the second answer, settle alike but for FL. -/
theorem settle_setFl {k : Kind} {s t : State} {h h' : Handler} {f : Byte} (hh : h' = h.map (·.setFl f))
    (ht : settle k s h = .next t) : settle k (s.setFl f) h' = .next (t.setFl f) := by
  subst hh
  cases h <;> cases ht <;> rfl

/-- A sequence answers alike but for FL when its second part does after every answer of the first. -/
theorem handler_bind_setFl {α : Type} {x : Except Condition α} {g g' : α → Handler} {f : Byte}
    (hg : ∀ a, x = .ok a → g' a = (g a).map (·.setFl f)) : (x >>= g') = (x >>= g).map (·.setFl f) := by
  cases x with
  | ok a => exact hg a rfl
  | error c => rfl

/-- Only the tag CMP answers flags, so under any other tag FL is not written. -/
theorem aluBinary_setFl {g : AluTag} (hg : g ≠ .cmp) (ra rb : Byte) (s : State) (f : Byte) :
    aluBinary g ra rb (s.setFl f) = (aluBinary g ra rb s).map (·.setFl f) := by
  refine handler_bind_setFl fun i _ => handler_bind_setFl fun j _ => handler_bind_setFl fun r hr => ?_
  obtain ⟨hcmp, -⟩ | ⟨-, v, rfl⟩ := alu_out hr
  · exact absurd hcmp hg
  · rfl

theorem exec_setFl_of_base {i : Instr} {s t : State} (f : Byte) (hbase : i.inProfile .base = true)
    (h : exec i s = .next t) : exec i (s.setFl f) = .next (t.setFl f) := by
  cases i with
  | hlt => cases h; rfl
  | ret => rw [exec_ret, execRet_eq] at h ⊢; cases h; rfl
  | push ra =>
    refine settle_setFl (handler_bind_setFl fun i _ => ?_) h
    simp only [memWrite_byte, handler_bind_ok]
    rfl
  | pop ra =>
    refine settle_setFl (handler_bind_setFl fun i _ => ?_) h
    rw [memRead_byte, memRead_byte]
    rfl
  | prn ra | ldi ra imm => exact settle_setFl (handler_bind_setFl fun i _ => rfl) h
  | call ra =>
    refine settle_setFl (handler_bind_setFl fun i _ => handler_bind_setFl fun ret _ => ?_) h
    simp only [memWrite_byte, handler_bind_ok]
    rfl
  | add ra rb | mul ra rb => exact settle_setFl (aluBinary_setFl (by decide) ra rb s f) h
  | jmp | jeq | jne | jgt | jlt | jle | jge | inc | dec | not | ld | st | sub | div | mod | cmp | and | or | xor | shl
  | shr => cases hbase

/-- Settles O14: the fetch does not see FL, a raise keeps it, and an instruction of BASE neither reads nor writes it. -/
theorem baseNeitherReadsNorWritesTheFlags : Obligations.BaseNeitherReadsNorWritesTheFlags := by
  intro s t f hbase h
  change step (s.setFl f) = .next (t.setFl f)
  obtain ⟨hrun, ⟨g, hg, rfl⟩ | ⟨i, hfetch, hexec, hprofile, -⟩⟩ := step_cases h
  · have hstep : step (s.setFl f) = .next ((s.setFl f).raise g.cond g.opcode) := by
      simp [step, hrun, fetchInstr_setFl, hg.fetchInstr_eq]
    exact hstep
  · have hstep : step (s.setFl f) = exec i (s.setFl f) := by simp [step, hrun, fetchInstr_setFl, hfetch]
    rw [hstep, exec_setFl_of_base f (hbase ▸ hprofile) hexec]

end Sys2Proof.Machine
end

section
/-! The dispatch cycle around an instruction (30_encoding.md R66, R67): a running core has a next state, and where memory holds an
instruction of the profile at pc, the step is `exec` of it. -/

namespace Sys2Proof.Machine

theorem exec_next (i : Instr) (s : State) : ∃ t, exec i s = .next t := by
  obtain ⟨h, hh⟩ := exec_settles i s
  exact hh ▸ settle_next i.kind s h

/-- Settles O8: the fetch answers an instruction, which `exec` runs to a next state, or a condition, which is raised. -/
theorem aStepExistsExactlyWhileRunning : Obligations.AStepExistsExactlyWhileRunning := by
  refine ⟨fun s hrun => ?_, fun s hhalted => by simp [step, hhalted]⟩
  obtain ⟨f, hf, -⟩ | ⟨k, hk, -⟩ := fetch_cases s
  · exact ⟨s.raise f.cond f.opcode, by simp [step, hrun, hf]⟩
  · obtain ⟨t, ht⟩ := exec_next (k.build (s.mem.get (s.pc.toNat + 1)) (s.mem.get (s.pc.toNat + 2))) s
    exact ⟨t, by simp [step, hrun, hk, ht]⟩

/-- The fetch reads the bytes of an instruction that memory holds at pc. -/
theorem fetchBytes_eq_encode {s : State} {i : Instr} (hinside : s.pc.toNat + (encode i).length ≤ 256)
    (hbytes : ∀ (k : Nat) (h : k < (encode i).length), s.mem.get (s.pc.toNat + k) = (encode i)[k]) :
    fetchBytes s = .ok (encode i) := by
  have hlen := encode_length i
  have hopcode : memRead s s.pc.toNat = .ok i.kind.opcode := by
    rw [memRead_lt s (by omega)]
    exact congrArg Except.ok (hbytes 0 (by omega))
  have hoperands : ((List.range (operandCount i.kind.opcode)).map fun k => s.mem.get (s.pc.toNat + 1 + k)) =
      i.operands := by
    refine List.ext_getElem (by simp [operandCount_opcode]) fun k hk _ => ?_
    rw [List.length_map, List.length_range] at hk
    have hbyte := hbytes (k + 1) (by omega)
    rw [List.getElem_map, List.getElem_range, Nat.add_assoc, Nat.add_comm 1 k, hbyte]
    rfl
  rw [fetchBytes, hopcode]
  simp only [readOperands_ok s (s.pc.toNat + 1) (operandCount i.kind.opcode) (by omega), hoperands, encode]

/-- Settles O22: the fetch reads the instruction's encoding, which decodes to it. -/
theorem stepRunsTheDecodedInstruction : Obligations.StepRunsTheDecodedInstruction := by
  intro s i hrun hprofile hinside hbytes
  have hdecode : decode s.opset (encode i) = .ok (i, []) := by
    simpa using decodeOfEncodeGivesTheInstruction s.opset i [] hprofile
  have hfetch : fetchInstr s = .ok i := by
    simp only [fetchInstr, fetchBytes_eq_encode hinside hbytes, hdecode]
  simp only [step, hrun, hfetch, if_true]

end Sys2Proof.Machine
end

section
/-! The states a launch starts from: `State.reset` is one of them, and the invariant holds at all of them. -/

namespace Sys2Proof.Machine

theorem Memory.ofBytes_replicate_unlisted (a n : Nat) : Memory.ofBytes a (List.replicate n Memory.unlisted) = [] := by
  induction n generalizing a with
  | zero => rfl
  | succ n ih => rw [List.replicate_succ, Memory.ofBytes, if_pos rfl, ih]

/-- Settles O4: the image's 256 bytes make a canonical memory, and every other field of the invariant stands in `State.launch`. -/
theorem everyLaunchSatisfiesTheInvariant : Obligations.EveryLaunchSatisfiesTheInvariant := fun l =>
  { mem_wf := Memory.wfFrom_ofBytes 0 l.memInit.toList (by simp)
    pc_le := Nat.zero_le 256
    fl_legal := rfl
    fl_base := fun _ => rfl
    running_iff := iff_of_true rfl rfl
    status_legal := rfl }

/-- Settles O2: an image of unlisted bytes lists nothing, and every other field is the same value. -/
theorem resetIsTheLaunchWithTheLoggedValues : Obligations.ResetIsTheLaunchWithTheLoggedValues := by
  have hmem : Memory.ofBytes 0 (Vector.replicate 256 (0 : Byte)).toList = [] := by
    rw [Vector.toList_replicate]
    exact Memory.ofBytes_replicate_unlisted 0 256
  unfold Obligations.ResetIsTheLaunchWithTheLoggedValues
  rw [State.launch, hmem]
  rfl

/-- Settles O3: `State.reset` is a launch. -/
theorem resetSatisfiesTheInvariant : Obligations.ResetSatisfiesTheInvariant := by
  unfold Obligations.ResetSatisfiesTheInvariant
  rw [resetIsTheLaunchWithTheLoggedValues]
  exact everyLaunchSatisfiesTheInvariant _

end Sys2Proof.Machine
end

section
/-! pc, the profile and the normal end, over every step (10_state.md R26, 00_scope.md R4, 60_exceptions.md R219). -/

namespace Sys2Proof.Machine

/-- Settles O12: a completed instruction keeps the profile, and so does a raise. -/
theorem noStepChangesTheProfile : Obligations.NoStepChangesTheProfile := by
  intro s t h
  obtain ⟨-, ⟨i, hdone, -⟩ | ⟨f, -, rfl⟩ | ⟨i, c, -, -, -, rfl⟩⟩ := step_completes_or_raises h
  · exact hdone.opset_eq
  · exact s.raise_opset _ _
  · exact s.raise_opset _ _

/-- The rows of `jumpRows` are the control transfers of the opcode table's column `setpc`. -/
theorem setsPc_of_mem_jumpRows {mk : Byte → Instr} {cond : Byte → Bool} (hm : (mk, cond) ∈ jumpRows) (ra : Byte) :
    (mk ra).kind.setsPc = true := by
  fin_cases hm <;> rfl

/-- Where a completed instruction leaves pc: past its own bytes, or, for a control transfer, at a byte. -/
theorem Done.pc_eq {s t : State} {i : Instr} (hd : Done s i t) :
    t.pc = BitVec.ofNat 9 (s.pc.toNat + 1 + i.operands.length) ∨
      i.kind.setsPc = true ∧ ∃ b : Byte, t.pc = b.setWidth 9 := by
  cases hd with
  | ret | call => exact .inr ⟨rfl, _, rfl⟩
  | @jump mk cond ra i hm _ =>
    split
    · exact .inr ⟨setsPc_of_mem_jumpRows hm ra, _, rfl⟩
    · exact .inl (by rw [operands_of_mem_jumpRows hm]; rfl)
  | binary hm => exact .inl (by rw [operands_of_mem_binaryRows hm]; simp)
  | unary hm => exact .inl (by rw [operands_of_mem_unaryRows hm]; simp)
  | hlt | push | pop | prn | ldi | ld | st => exact .inl rfl

/-- An advance past the instruction is the only way for pc to become 256, since a byte is less. -/
theorem Done.pc_of_eq_256 {s t : State} {i : Instr} (hd : Done s i t) (hinside : s.pc.toNat + i.operands.length < 256)
    (ht : t.pc.toNat = 256) : s.pc.toNat + 1 + i.operands.length = 256 := by
  obtain hpc | ⟨-, b, hpc⟩ := hd.pc_eq
  · rw [hpc, BitVec.toNat_ofNat] at ht
    omega
  · rw [hpc, byte_setWidth_toNat] at ht
    have := b.isLt
    omega

/-- Settles O15: the launch sets 0; a completed instruction or a raise keeps the bound; only an advance gives 256; the last part
is the failed fetch of O24. -/
theorem pcStaysInRangeAndDoesNotWrap : Obligations.PcStaysInRangeAndDoesNotWrap := by
  refine ⟨fun l => rfl, fun s t hpc h => ?_, fun s t hpc h ht => ?_, readsPastTheEndOfMemoryComeBeforeTheLookup.1⟩
  · obtain ⟨-, ⟨i, hdone, -, hinside⟩ | ⟨f, -, rfl⟩ | ⟨i, c, -, -, -, rfl⟩⟩ := step_completes_or_raises h
    · exact hdone.pc_le hinside
    · exact hpc
    · exact hpc
  · obtain ⟨-, ⟨f, -, rfl⟩ | ⟨i, -, hexec, -, hop, hinside⟩⟩ := step_cases h
    · exact absurd ht hpc.ne
    · rw [← hop, operandCount_opcode, ← i.operands_length]
      rw [operandCount_opcode, ← i.operands_length] at hinside
      obtain hdone | ⟨c, -, rfl⟩ := exec_cases hexec
      · exact hdone.pc_of_eq_256 hinside ht
      · exact absurd ht hpc.ne

/-- Settles O16: with bit 4 of the opcode clear the instruction is no control transfer, so completed it advances. -/
theorem pcAdvancesPastInstructionsThatDoNotTransfer : Obligations.PcAdvancesPastInstructionsThatDoNotTransfer := by
  intro i s t h hbit
  obtain hdone | ⟨c, -, ht⟩ := exec_cases h
  · obtain hpc | ⟨hsets, -⟩ := hdone.pc_eq
    · refine .inl ?_
      rw [hpc, pc_advance, encode, List.length_cons, Nat.add_comm]
    · obtain ⟨-, -, hset, -⟩ := Laws.EncodingShape.kinds i.kind i.kind.mem_all
      have hone := hset.2 hsets
      omega
  · exact .inr ⟨c, ht⟩

/-- Settles O17: of everything a step can do only a completed HLT stops the core with that cause. -/
theorem aRunEndsNormallyOnlyAtHlt : Obligations.ARunEndsNormallyOnlyAtHlt := by
  intro s t h hhalted hcause
  obtain ⟨hrun, ⟨f, -, rfl⟩ | ⟨i, -, hexec, -, hop, hinside⟩⟩ := step_cases h
  · exact absurd hcause (by simp [f.cond.cause_ne.2])
  · obtain hdone | ⟨c, -, rfl⟩ := exec_cases hexec
    · obtain ⟨-, hrunning, -⟩ | ⟨rfl, -, -⟩ := hdone.running_or_halt
      · simp [hrunning, hrun] at hhalted
      · have hlt : s.pc.toNat < 256 := by omega
        cases (exec_hlt s).symm.trans hexec
        refine ⟨hlt, hop.symm, ?_, rfl⟩
        rw [State.advance_pc, State.halt_pc, BitVec.toNat_ofNat]
        omega
    · exact absurd hcause (by simp [c.cause_ne.2])

end Sys2Proof.Machine
end

section
/-! An EXTENDED ALU instruction in BASE (41_alu.md R102, log entry 7): its tag keeps it from completing and its operands from
raising anything but UnsupportedOperation, and no step comes to it. -/

namespace Sys2Proof.Machine

theorem Instr.wellFormed_iff {i : Instr} : i.wellFormed = true ↔ ∀ b ∈ i.regOperands, b.toNat < 8 := by
  simp [Instr.wellFormed, namesRegister]

theorem alu_ok_supported {o : OpSet} {g : AluTag} {a b : Byte} {r : AluOut} (h : alu o g a b = .ok r) :
    g.supported o = true := by
  by_contra hg
  rw [alu_of_unsupported (by simpa using hg)] at h
  cases h

/-- Of the ALU instructions only those of BASE complete in BASE: ADD and MUL. -/
theorem Done.inProfile_base {s t : State} {i : Instr} (hd : Done s i t) (hs : s.opset = .base)
    (halu : i.kind.usesAlu = true) : i.inProfile .base = true := by
  cases hd with
  | @binary g mk _ _ _ _ _ hm _ _ hr =>
    obtain rfl | rfl := (AluTag.supported_base_iff g).1 (hs ▸ alu_ok_supported hr)
    · obtain rfl : mk = .add := by simpa [binaryRows] using hm
      rfl
    · obtain rfl : mk = .mul := by simpa [binaryRows] using hm
      rfl
  | @unary g _ _ _ _ hm _ hr =>
    obtain rfl | rfl := (AluTag.supported_base_iff g).1 (hs ▸ alu_ok_supported hr) <;> simp [unaryRows] at hm
  | jump hm => fin_cases hm <;> cases halu
  | hlt | ret | push | pop | prn | call | ldi | ld | st => cases halu

/-- No step raises UnsupportedOperation: a completed instruction that stops the core is HLT, and the fetch and the instructions
of the profile raise other conditions. -/
theorem step_ne_raise_unsupportedOperation (s : State) (op : Option Byte) :
    step s ≠ .next (s.raise .unsupportedOperation op) := by
  intro h
  have hcause {c : Condition} {op' : Option Byte} (hc : c ≠ .unsupportedOperation) :
      s.raise .unsupportedOperation op ≠ s.raise c op' := fun heq =>
    Condition.cause_ne_unsupportedOperation hc (by simpa [Condition.cause] using (congrArg (·.status.cause) heq).symm)
  obtain ⟨hrun, ⟨i, hdone, -⟩ | ⟨f, hf, ht⟩ | ⟨i, c, hc, hprofile, -, ht⟩⟩ := step_completes_or_raises h
  · exact absurd (hdone.cause_eq_halt hrun rfl) Cause.noConfusion
  · exact hcause hf.cond_ne_unsupportedOperation ht
  · exact hcause (hc.ne_unsupportedOperation hprofile) ht

/-- Settles O45: of what `exec` can do, good operands and BASE leave the refusal of the tag alone. -/
theorem extendedAluInstructionsInBaseRaiseUnsupportedOperation :
    Obligations.ExtendedAluInstructionsInBaseRaiseUnsupportedOperation := by
  intro s i hs hwf hkind
  refine ⟨?_, step_ne_raise_unsupportedOperation s _⟩
  have hkinds : ∀ k ∈ [Kind.inc, .dec, .not, .sub, .div, .mod, .cmp, .and, .or, .xor, .shl, .shr],
      k.usesAlu = true ∧ k.inProfile .base = false := by decide
  obtain ⟨halu, hout⟩ := hkinds _ hkind
  obtain ⟨t, ht⟩ := exec_next i s
  rw [ht]
  obtain hdone | ⟨c, hc, rfl⟩ := exec_cases ht
  · exact absurd (hdone.inProfile_base hs halu) (by simp [Instr.inProfile, hout])
  · cases hc with
    | index hb hge => exact absurd (Instr.wellFormed_iff.1 hwf _ hb) (Nat.not_lt.2 hge)
    | returnAddress => cases halu
    | divideByZero _ hext => rw [hs] at hext; cases hext
    | unsupported => rfl

end Sys2Proof.Machine
end

section
/-! Canonical memories are determined by their bytes (20_memory.md, section 1): the first entry of each is its lowest byte that
differs from `Memory.unlisted`. -/

namespace Sys2Proof.Machine.Memory

theorem get_head (a : Nat) (v : Byte) (m : Memory) : get ((a, v) :: m) a = v := if_pos rfl

/-- Two canonical memories that read alike begin at the same address: below the first entry of one, it reads `unlisted`. -/
theorem head_le_of_get_eq {lo a b : Nat} {v w : Byte} {m n : Memory} (hm : wfFrom lo ((a, v) :: m) = true)
    (hn : wfFrom lo ((b, w) :: n) = true) (h : ∀ c, c < 256 → get ((a, v) :: m) c = get ((b, w) :: n) c) : b ≤ a := by
  obtain ⟨-, ha, hv, -⟩ := (wfFrom_cons _ _ _ _).1 hm
  obtain ⟨-, hb⟩ := (wfFrom_cons _ _ _ _).1 hn
  by_contra hlt
  have hbelow := get_below ((wfFrom_cons b b w n).2 ⟨le_rfl, hb⟩) (Nat.not_le.1 hlt)
  exact hv (by rw [← get_head a v m, h a ha, hbelow])

/-- Two canonical memories with the same first entry that read alike have tails that read alike. -/
theorem get_tail_eq {a : Nat} {v : Byte} {m n : Memory} (hm : wfFrom (a + 1) m = true) (hn : wfFrom (a + 1) n = true)
    (h : ∀ c, c < 256 → get ((a, v) :: m) c = get ((a, v) :: n) c) (c : Nat) (hc : c < 256) : get m c = get n c := by
  by_cases hac : a = c
  · rw [get_below hm (by omega), get_below hn (by omega)]
  · simpa [get, hac] using h c hc

theorem eq_of_get_eq {lo : Nat} {m n : Memory} (hm : wfFrom lo m = true) (hn : wfFrom lo n = true)
    (h : ∀ a, a < 256 → get m a = get n a) : m = n := by
  induction m generalizing lo n with
  | nil =>
    cases n with
    | nil => rfl
    | cons e n =>
      obtain ⟨-, hlt, hv, -⟩ := (wfFrom_cons _ _ _ _).1 hn
      exact absurd ((get_head _ _ n).symm.trans (h e.1 hlt).symm) hv
  | cons e m ih =>
    obtain ⟨-, hlt, hv, hm'⟩ := (wfFrom_cons _ _ _ _).1 hm
    cases n with
    | nil => exact absurd ((get_head _ _ m).symm.trans (h e.1 hlt)) hv
    | cons d n =>
      obtain ⟨a, v⟩ := e
      obtain ⟨b, w⟩ := d
      obtain rfl : a = b :=
        le_antisymm (head_le_of_get_eq hn hm fun c hc => (h c hc).symm) (head_le_of_get_eq hm hn h)
      obtain rfl : v = w := by simpa [get_head] using h a hlt
      obtain ⟨-, -, -, hn'⟩ := (wfFrom_cons _ _ _ _).1 hn
      rw [ih hm' hn' (get_tail_eq hm' hn' h)]

/-- Settles O51: the canonical form from address 0 on. -/
theorem equalContentsAreEqualMemories : Obligations.EqualContentsAreEqualMemories :=
  fun _ _ hm hn h => eq_of_get_eq hm hn h

end Sys2Proof.Machine.Memory
end

section
/-! Two instructions in sequence: each one's exact next state is its own obligation, and the second reads what the first wrote. -/

namespace Sys2Proof.Machine

theorem byte_sub_one_add_one (b : Byte) : b - 1 + 1 = b := BitVec.sub_add_cancel b 1

/-- The registers after a PUSH and a POP of register `i`, which pops the byte pushed: SP went down by one and `i` got its own value
back, or, being SP, the decremented one. -/
theorem Regs.push_pop_set (r : Regs) (i : Fin 8) {v : Byte} (hv : v = if i = 7 then r.get 7 - 1 else r.get i) :
    ((r.set 7 (r.get 7 - 1)).set i v).set 7 ((if 7 = i then v else r.get 7 - 1) + 1) = r := by
  by_cases hi : i = 7
  · subst hi
    rw [if_pos rfl] at hv ⊢
    rw [Regs.set_set, Regs.set_set, hv, byte_sub_one_add_one, Regs.set_get]
  · rw [if_neg hi] at hv
    rw [if_neg (Ne.symm hi), byte_sub_one_add_one, hv]
    refine Regs.ext_get fun j => ?_
    rw [Regs.get_set, Regs.get_set, Regs.get_set]
    split_ifs with h7 h
    · rw [h7]
    · rw [h]
    · rfl

/-- Settles O52: POP reads the pushed byte back at SP, and its increment undoes PUSH's decrement; for R7 the pushed byte is the
decremented SP. -/
theorem pushThenPopRestoresTheRegisters : Obligations.PushThenPopRestoresTheRegisters := by
  intro s t u i hwf hpush hpop
  obtain ⟨-, hpushes, -⟩ := pushDecrementsSpAndStores
  cases (hpushes s i).symm.trans hpush
  cases (exec_pop_regByte _ i).symm.trans hpop
  have hread := Memory.get_set_same (s.reg 7 - 1).toNat (if i = 7 then s.reg 7 - 1 else s.reg i) hwf
  refine ⟨?_, rfl, hread⟩
  simp only [State.reg, Regs.get_set_same] at hread ⊢
  exact Regs.push_pop_set s.regs i hread

/-- Settles O53: CALL stacks its address plus 2, which fits a byte, and RET takes pc from there and undoes SP's decrement. -/
theorem callThenRetResumesAfterTheCall : Obligations.CallThenRetResumesAfterTheCall := by
  intro s t u v i hwf hfits hcall hsp hbyte hret
  obtain ⟨-, hcalls, -⟩ := callPushesTheReturnAddressAndJumps
  obtain ⟨-, hrets⟩ := retPopsTheProgramCounter
  have ht7 : t.reg 7 = s.reg 7 - 1 := by
    cases (hcalls s i hfits).symm.trans hcall
    exact Regs.get_set_same s.regs 7 (s.reg 7 - 1)
  have htmem : t.mem.get (t.reg 7).toNat = BitVec.ofNat 8 (s.pc.toNat + 2) := by
    rw [ht7]
    cases (hcalls s i hfits).symm.trans hcall
    exact Memory.get_set_same _ _ hwf
  cases (hrets u).symm.trans hret
  constructor
  · rw [byte_setWidth_toNat, hsp, hbyte, htmem, BitVec.toNat_ofNat, Nat.mod_eq_of_lt hfits]
  · rw [State.reg, Regs.get_set_same, hsp, ht7, byte_sub_one_add_one]

/-- Settles O54: PRN appends the register LDI wrote. -/
theorem ldiThenPrnEmitsTheImmediate : Obligations.LdiThenPrnEmitsTheImmediate := by
  intro s t u i v hldi hprn
  obtain ⟨-, hloads, -⟩ := ldiLoadsTheImmediate
  obtain ⟨-, hemits, -⟩ := prnAppendsTheRegisterToTheOutput
  cases (hloads s i v).symm.trans hldi
  cases (hemits _ i).symm.trans hprn
  simp [State.reg]

/-- A step of a running core with HLT's opcode at pc halts there. -/
theorem step_hlt {s : State} (hrun : s.running = true) (hinside : s.pc.toNat < 256)
    (hop : s.mem.get s.pc.toNat = 0x01) :
    ∃ u, step s = .next u ∧ u.running = false ∧ u.status.cause = .halt ∧ u.status.addr = s.pc := by
  have hstep := stepRunsTheDecodedInstruction s .hlt hrun (by cases s.opset <;> rfl) hinside
    fun k hk => match k, hk with
      | 0, _ => hop
  rw [exec_hlt] at hstep
  exact ⟨_, hstep, rfl, rfl, rfl⟩

/-- Settles O55: ST's state is running, with HLT's opcode at its pc. -/
theorem aStoreIsSeenByTheNextFetch : Obligations.AStoreIsSeenByTheNextFetch := by
  intro s i j hrun hs hwf hinside hop hra hrb haddr hbyte
  obtain ⟨-, hstores, -⟩ := stStoresToTheAddressInTheFirstRegister
  have hst := stepRunsTheDecodedInstruction s (.st (regByte i) (regByte j)) hrun (by rw [hs]; rfl) hinside.le
    fun k hk => match k, hk with
      | 0, _ => hop
      | 1, _ => hra
      | 2, _ => hrb
  rw [hstores] at hst
  have hpc : (s.pc + 3).toNat = s.pc.toNat + 3 := by bv_omega
  have hread : (s.mem.set (s.reg i).toNat (s.reg j)).get (s.pc + 3).toNat = 0x01 := by
    rw [hpc, haddr, Memory.get_set_same _ _ hwf, hbyte]
  obtain ⟨u, hu, hhalted, hcause, haddr'⟩ :=
    step_hlt (s := { s with mem := s.mem.set (s.reg i).toNat (s.reg j), pc := s.pc + 3 }) hrun
      (hpc.trans_lt hinside) hread
  exact ⟨_, u, hst, hrun, hu, hhalted, hcause, by rw [haddr', hpc]⟩

end Sys2Proof.Machine
end

section
/-! What each instruction leaves unchanged: the frames. The shapes of `Done` say once which parts of the state a completed
instruction may write, and a raised condition writes `running` and STATUS alone (60_exceptions.md R216). -/

namespace Sys2Proof.Machine

/-- The kinds that write SP: PUSH and POP (42_data_output.md), CALL and RET (43_control.md). -/
def stackKinds : List Kind := [.push, .pop, .call, .ret]

/-- The kinds whose only result goes to the register their first operand names. -/
def registerResultKinds : List Kind :=
  [.ldi, .add, .mul, .sub, .div, .mod, .and, .or, .xor, .shl, .shr, .ld, .inc, .dec, .not]

/-- The kinds that write a result to the register their first operand names: those and POP. -/
def resultKinds : List Kind := .pop :: registerResultKinds

/-! ### Registers -/

theorem cmp_or_mem_resultKinds {g : AluTag} {mk : Byte → Byte → Instr} (hm : (g, mk) ∈ binaryRows) (ra rb : Byte) :
    g = .cmp ∨ (mk ra rb).kind ∈ resultKinds := by
  fin_cases hm <;> simp [Instr.kind, resultKinds, registerResultKinds]

theorem mem_resultKinds_of_mem_unaryRows {g : AluTag} {mk : Byte → Instr} (hm : (g, mk) ∈ unaryRows) (ra : Byte) :
    (mk ra).kind ∈ resultKinds := by
  fin_cases hm <;> simp [Instr.kind, resultKinds, registerResultKinds]

/-- A completed instruction writes no register but SP, if it is of the stack, and the one its first operand names, if its result
goes there. -/
theorem Done.reg_eq {s t : State} {i : Instr} (hd : Done s i t) {j : Fin 8} (hsp : i.kind ∈ stackKinds → j ≠ 7)
    (hresult : i.kind ∈ resultKinds → ∀ b ∈ i.operands.head?, j.val ≠ b.toNat) : t.reg j = s.reg j := by
  cases hd with
  | hlt | prn | st => rfl
  | jump => split <;> rfl
  | ret | push | call => exact Regs.get_set_ne _ _ (hsp (by simp [Instr.kind, stackKinds]))
  | @pop ra i hi =>
    have hne : j ≠ i := regIndex_ne hi (hresult (by simp [Instr.kind, resultKinds]) ra rfl)
    exact (Regs.get_set_ne _ _ (hsp (by simp [Instr.kind, stackKinds]))).trans (Regs.get_set_ne _ _ hne)
  | @ldi ra _ i hi | @ld ra _ i _ hi _ =>
    exact Regs.get_set_ne _ _
      (regIndex_ne hi (hresult (by simp [Instr.kind, resultKinds, registerResultKinds]) ra rfl))
  | @binary g mk ra rb i _ _ hm hi _ hr =>
    obtain ⟨-, rfl⟩ | ⟨hg, v, rfl⟩ := alu_out hr
    · rfl
    · have hhead : ra ∈ (mk ra rb).operands.head? := by rw [operands_of_mem_binaryRows hm]; rfl
      exact Regs.get_set_ne _ _ (regIndex_ne hi (hresult ((cmp_or_mem_resultKinds hm ra rb).resolve_left hg) ra hhead))
  | @unary g mk ra i _ hm hi hr =>
    obtain ⟨-, rfl⟩ | ⟨-, v, rfl⟩ := alu_out hr
    · rfl
    · have hhead : ra ∈ (mk ra).operands.head? := by rw [operands_of_mem_unaryRows hm]; rfl
      exact Regs.get_set_ne _ _ (regIndex_ne hi (hresult (mem_resultKinds_of_mem_unaryRows hm ra) ra hhead))

/-! ### Memory -/

/-- A completed instruction leaves memory alone, or stores one byte: PUSH and CALL at `pushAddr`, ST at the address in its first
register. -/
theorem Done.mem_cases {s t : State} {i : Instr} (hd : Done s i t) :
    t.mem = s.mem ∨ (i.kind ∈ [.push, .call] ∧ ∃ v, t.mem = s.mem.set s.pushAddr.toNat v) ∨
      (∃ ra rb r v, i = .st ra rb ∧ regIndex ra = .ok r ∧ t.mem = s.mem.set (s.addrIn r) v) := by
  cases hd with
  | push | call => exact .inr (.inl ⟨by simp [Instr.kind], _, rfl⟩)
  | st hi => exact .inr (.inr ⟨_, _, _, _, rfl, hi, rfl⟩)
  | jump => split <;> exact .inl rfl
  | binary | unary => exact .inl (by simp)
  | hlt | ret | pop | prn | ldi | ld => exact .inl rfl

/-! ### The frame of `exec`, part by part -/

section
variable {i : Instr} {s t : State}

theorem exec_reg_eq (h : exec i s = .next t) {j : Fin 8} (hsp : i.kind ∈ stackKinds → j ≠ 7)
    (hresult : i.kind ∈ resultKinds → ∀ b ∈ i.operands.head?, j.val ≠ b.toNat) : t.reg j = s.reg j := by
  obtain hdone | ⟨c, -, rfl⟩ := exec_cases h
  · exact hdone.reg_eq hsp hresult
  · rfl

theorem exec_regs_eq (h : exec i s = .next t) (hk : i.kind ∉ stackKinds ++ resultKinds) : t.regs = s.regs := by
  rw [List.mem_append, not_or] at hk
  obtain ⟨hsp, hresult⟩ := hk
  exact Regs.ext_get fun j => exec_reg_eq h (fun hi => absurd hi hsp) (fun hi => absurd hi hresult)

theorem exec_opset_eq (h : exec i s = .next t) : t.opset = s.opset := by
  obtain hdone | ⟨c, -, rfl⟩ := exec_cases h
  · exact hdone.opset_eq
  · rfl

theorem exec_fl_eq_of_kind (h : exec i s = .next t) (hk : i.kind ≠ .cmp) : t.fl = s.fl :=
  onlyCmpWritesTheFlags.1 i s t h fun ra rb hi => hk (by rw [hi]; rfl)

theorem exec_out_eq_of_kind (h : exec i s = .next t) (hk : i.kind ≠ .prn) : t.out = s.out :=
  exec_out_eq h fun ra hi => hk (by rw [hi]; rfl)

theorem exec_mem_eq (h : exec i s = .next t) (hk : i.kind ∉ [.push, .call, .st]) : t.mem = s.mem := by
  obtain hdone | ⟨c, -, rfl⟩ := exec_cases h
  · obtain hmem | ⟨hi, -⟩ | ⟨ra, rb, r, v, rfl, -⟩ := hdone.mem_cases
    · exact hmem
    · exact absurd (show i.kind ∈ [Kind.push, .call] ++ [Kind.st] from List.mem_append_left _ hi) hk
    · exact absurd (by simp [Instr.kind]) hk
  · rfl

/-- Only HLT writes `running` or STATUS without raising a condition. -/
theorem exec_running_eq_or_raise (h : exec i s = .next t) (hk : i.kind ≠ .hlt) :
    (t.running = s.running ∧ t.status = s.status) ∨ ∃ c, t = s.raise c (some i.kind.opcode) := by
  obtain hdone | ⟨c, -, ht⟩ := exec_cases h
  · obtain ⟨-, hrunning, hstatus⟩ | ⟨rfl, -⟩ := hdone.running_or_halt
    · exact .inl ⟨hrunning, hstatus⟩
    · exact absurd rfl hk
  · exact .inr ⟨c, ht⟩

/-- The parts that only HLT, PRN and CMP write without raising a condition. -/
theorem exec_fl_out_opset_eq (h : exec i s = .next t) (hk : i.kind ∉ [.cmp, .prn]) :
    t.fl = s.fl ∧ t.out = s.out ∧ t.opset = s.opset :=
  ⟨exec_fl_eq_of_kind h fun hi => hk (by simp [hi]), exec_out_eq_of_kind h fun hi => hk (by simp [hi]), exec_opset_eq h⟩

end

/-! ### The frames, by kind of instruction -/

/-- Settles O56: the listed kinds write their result's register only. -/
theorem registerResultFrame : Obligations.RegisterResultFrame := by
  intro ra rb i hi s t h
  have hkinds : ∀ k ∈ registerResultKinds, k ∉ stackKinds ∧ k ∉ [.cmp, .prn] ∧ k ∉ [.push, .call, .st] ∧ k ≠ .hlt := by
    decide
  obtain ⟨hsp, hflout, hmem, hhlt⟩ := hkinds i.kind (List.mem_map_of_mem (f := Instr.kind) hi)
  have hhead : i.operands.head? = some ra := by fin_cases hi <;> rfl
  obtain ⟨hfl, hout, hopset⟩ := exec_fl_out_opset_eq h hflout
  refine ⟨fun j hj => exec_reg_eq h (fun hi => absurd hi hsp) fun _ b hb => ?_, hfl, hout, hopset,
    fun a => by rw [exec_mem_eq h hmem], exec_running_eq_or_raise h hhlt⟩
  rw [hhead] at hb
  cases hb
  exact hj

/-- Settles O57: PUSH and CALL write SP and one byte of memory. -/
theorem stackStoreFrame : Obligations.StackStoreFrame := by
  intro ra i hi s t h
  have hkinds : ∀ k ∈ [Kind.push, .call], k ∉ resultKinds ∧ k ∉ [.cmp, .prn] ∧ k ≠ .st ∧ k ≠ .hlt := by decide
  obtain ⟨hresult, hflout, hst, hhlt⟩ := hkinds i.kind (List.mem_map_of_mem (f := Instr.kind) hi)
  obtain ⟨hfl, hout, hopset⟩ := exec_fl_out_opset_eq h hflout
  refine ⟨fun j hj => exec_reg_eq h (fun _ => hj) fun hi => absurd hi hresult, hfl, hout, hopset, ?_,
    exec_running_eq_or_raise h hhlt⟩
  rintro _ rfl b hb
  obtain hdone | ⟨c, -, rfl⟩ := exec_cases h
  · obtain hmem | ⟨-, v, hmem⟩ | ⟨_, _, _, _, rfl, -⟩ := hdone.mem_cases
    · rw [hmem]
    · rw [hmem, Memory.get_set_ne _ _ hb]
    · exact absurd rfl hst
  · rfl

/-- Settles O58: POP and RET write SP, and POP its destination. -/
theorem stackLoadFrame : Obligations.StackLoadFrame := by
  intro ra i hi s t h
  have hkinds : ∀ k ∈ [Kind.pop, .ret], k ∉ [.cmp, .prn] ∧ k ∉ [.push, .call, .st] ∧ k ≠ .hlt := by decide
  obtain ⟨hflout, hmem, hhlt⟩ := hkinds i.kind (List.mem_map_of_mem (f := Instr.kind) hi)
  obtain ⟨hfl, hout, hopset⟩ := exec_fl_out_opset_eq h hflout
  refine ⟨fun j hj hpop => exec_reg_eq h (fun _ => hj) fun _ b hb => ?_, hfl, hout, hopset,
    fun a => by rw [exec_mem_eq h hmem], exec_running_eq_or_raise h hhlt⟩
  fin_cases hi <;> cases hb
  exact hpop rfl

/-- Settles O59: ST writes one byte of memory; with a bad first index it is the raising form, which writes none. -/
theorem storeFrame : Obligations.StoreFrame := by
  intro ra rb s t h
  have hk : Kind.st ∉ stackKinds ++ resultKinds ∧ Kind.st ∉ [.cmp, .prn] ∧ Kind.st ≠ .hlt := by decide
  obtain ⟨hregs, hflout, hhlt⟩ := hk
  obtain ⟨hfl, hout, hopset⟩ := exec_fl_out_opset_eq h hflout
  refine ⟨exec_regs_eq h hregs, hfl, hout, hopset, ?_, fun hra b => ?_, exec_running_eq_or_raise h hhlt⟩
  · rintro i hi _ rfl b hb
    obtain hdone | ⟨c, -, rfl⟩ := exec_cases h
    · obtain hmem | ⟨hk, -⟩ | ⟨_, _, r, v, heq, hr, hmem⟩ := hdone.mem_cases
      · rw [hmem]
      · exact absurd hk (by simp [Instr.kind])
      · cases heq
        obtain rfl : r = i := Fin.ext ((regIndex_ok hr).trans hi.symm)
        rw [hmem, Memory.get_set_ne _ _ hb]
    · rfl
  · cases (exec_bad_first_operand s rfl hra).symm.trans h
    rfl

/-- Settles O60: HLT, PRN, CMP and the jumps write no register and no memory; FL, OUT and `running` each have the one kind that
writes them. -/
theorem noRegisterNoStoreFrame : Obligations.NoRegisterNoStoreFrame := by
  intro ra rb i hi s t h
  have hkinds : ∀ k ∈ [Kind.hlt, .prn, .cmp, .jmp, .jeq, .jne, .jgt, .jlt, .jle, .jge],
      k ∉ stackKinds ++ resultKinds ∧ k ∉ [.push, .call, .st] := by decide
  obtain ⟨hregs, hmem⟩ := hkinds i.kind (List.mem_map_of_mem (f := Instr.kind) hi)
  have hnamed : (i.kind = .cmp → i = .cmp ra rb) ∧ (i.kind = .prn → i = .prn ra) ∧ (i.kind = .hlt → i = .hlt) := by
    fin_cases hi <;> simp [Instr.kind]
  obtain ⟨hcmp, hprn, hhlt⟩ := hnamed
  exact ⟨exec_regs_eq h hregs, exec_opset_eq h, fun a => by rw [exec_mem_eq h hmem],
    fun hne => exec_fl_eq_of_kind h (mt hcmp hne), fun hne => exec_out_eq_of_kind h (mt hprn hne),
    fun hne => exec_running_eq_or_raise h (mt hhlt hne)⟩

end Sys2Proof.Machine
end
